-- ==== Sys2Proof/Word.lean ====
section
/-! DEFINITION. The word types of the CHIP-8 core: what the spec treats as bits, at the width it gives them. -/

namespace Sys2Proof

/-- A byte of memory, a general register, a timer, an 8-bit immediate `nn` (R20, R31, R60, R93). -/
abbrev Byte := BitVec 8

/-- A 16-bit register (`I`, `PC`), a stack entry, an instruction word (R25, R26, R29, R90). -/
abbrev Word := BitVec 16

/-- A 4-bit field of an instruction word (R91, R92). -/
abbrev Nibble := BitVec 4

/-- The 12-bit unsigned address `nnn` of an instruction word (R93). -/
abbrev Addr := BitVec 12

/-- The name of a general register, `V[0]` to `V[15]` (R20). -/
abbrev RegName := Fin 16

end Sys2Proof
end

