-- ==== Sys2Proof/Syntax.lean ====
section
/-! DEFINITION. The instructions: one constructor per row of spec/opcode_table.json, in the table's order,
carrying the fields R103 gives each. Fields that decoding ignores (R95) are not carried. -/

namespace Sys2Proof

/-- The 34 instructions of R96. -/
inductive Instr where
  /-- Row 1, `CLS` (00E0). -/
  | cls
  /-- Row 2, `RET` (00EE). -/
  | ret
  /-- Row 3, `SYS nnn` (0NNN with a low byte other than 0xE0 and 0xEE). -/
  | sys (nnn : Addr)
  /-- Row 4, `JP nnn` (1NNN). -/
  | jp (nnn : Addr)
  /-- Row 5, `CALL nnn` (2NNN). -/
  | call (nnn : Addr)
  /-- Row 6, `SE Vx, nn` (3XNN). -/
  | seVxNn (x : RegName) (nn : Byte)
  /-- Row 7, `SNE Vx, nn` (4XNN). -/
  | sneVxNn (x : RegName) (nn : Byte)
  /-- Row 8, `SE Vx, Vy` (5XY0). -/
  | seVxVy (x y : RegName)
  /-- Row 9, `LD Vx, nn` (6XNN). -/
  | ldVxNn (x : RegName) (nn : Byte)
  /-- Row 10, `ADD Vx, nn` (7XNN). -/
  | addVxNn (x : RegName) (nn : Byte)
  /-- Row 11, `LD Vx, Vy` (8XY0). -/
  | ldVxVy (x y : RegName)
  /-- Row 12, `OR Vx, Vy` (8XY1). -/
  | orVxVy (x y : RegName)
  /-- Row 13, `AND Vx, Vy` (8XY2). -/
  | andVxVy (x y : RegName)
  /-- Row 14, `XOR Vx, Vy` (8XY3). -/
  | xorVxVy (x y : RegName)
  /-- Row 15, `ADD Vx, Vy` (8XY4). -/
  | addVxVy (x y : RegName)
  /-- Row 16, `SUB Vx, Vy` (8XY5). -/
  | subVxVy (x y : RegName)
  /-- Row 17, `SHR Vx` (8XY6; `y` is ignored). -/
  | shrVx (x : RegName)
  /-- Row 18, `SHL Vx` (8XYE; `y` is ignored). -/
  | shlVx (x : RegName)
  /-- Row 19, `SNE Vx, Vy` (9XY0). -/
  | sneVxVy (x y : RegName)
  /-- Row 20, `LD I, nnn` (ANNN). -/
  | ldINnn (nnn : Addr)
  /-- Row 21, `JP V0, nnn` (BNNN). -/
  | jpV0Nnn (nnn : Addr)
  /-- Row 22, `RND Vx, nn` (CXNN). -/
  | rndVxNn (x : RegName) (nn : Byte)
  /-- Row 23, `DRW Vx, Vy, n` (DXYN). -/
  | drw (x y : RegName) (n : Nibble)
  /-- Row 24, `SKP Vx` (EX9E). -/
  | skp (x : RegName)
  /-- Row 25, `SKNP Vx` (EXA1). -/
  | sknp (x : RegName)
  /-- Row 26, `LD Vx, DT` (FX07). -/
  | ldVxDt (x : RegName)
  /-- Row 27, `LD Vx, K` (FX0A). -/
  | ldVxK (x : RegName)
  /-- Row 28, `LD DT, Vx` (FX15). -/
  | ldDtVx (x : RegName)
  /-- Row 29, `LD ST, Vx` (FX18). -/
  | ldStVx (x : RegName)
  /-- Row 30, `ADD I, Vx` (FX1E). -/
  | addIVx (x : RegName)
  /-- Row 31, `LD F, Vx` (FX29). -/
  | ldFVx (x : RegName)
  /-- Row 32, `LD B, Vx` (FX33). -/
  | ldBVx (x : RegName)
  /-- Row 33, `LD [I], Vx` (FX55). -/
  | ldMemVx (x : RegName)
  /-- Row 34, `LD Vx, [I]` (FX65). -/
  | ldVxMem (x : RegName)
  deriving DecidableEq, Repr

/-- The number of the instruction's row in the table of R96. -/
def Instr.row : Instr → Nat
  | .cls => 1
  | .ret => 2
  | .sys _ => 3
  | .jp _ => 4
  | .call _ => 5
  | .seVxNn _ _ => 6
  | .sneVxNn _ _ => 7
  | .seVxVy _ _ => 8
  | .ldVxNn _ _ => 9
  | .addVxNn _ _ => 10
  | .ldVxVy _ _ => 11
  | .orVxVy _ _ => 12
  | .andVxVy _ _ => 13
  | .xorVxVy _ _ => 14
  | .addVxVy _ _ => 15
  | .subVxVy _ _ => 16
  | .shrVx _ => 17
  | .shlVx _ => 18
  | .sneVxVy _ _ => 19
  | .ldINnn _ => 20
  | .jpV0Nnn _ => 21
  | .rndVxNn _ _ => 22
  | .drw _ _ _ => 23
  | .skp _ => 24
  | .sknp _ => 25
  | .ldVxDt _ => 26
  | .ldVxK _ => 27
  | .ldDtVx _ => 28
  | .ldStVx _ => 29
  | .addIVx _ => 30
  | .ldFVx _ => 31
  | .ldBVx _ => 32
  | .ldMemVx _ => 33
  | .ldVxMem _ => 34

end Sys2Proof
end

