-- ==== Sys2Proof/WellFormed.lean ====
section
/-! DEFINITION. Which terms of `Instr` are instructions of the machine. Every field has the width of its bits,
so one check remains: the low byte of a `SYS` is not one that selects `CLS` or `RET` (R94, R101). -/

namespace Sys2Proof

/-- The low byte `nn` of a 12-bit field `nnn`. -/
def lowByte (nnn : Addr) : Byte := nnn.setWidth 8

/-- A `SYS nnn` is an instruction only when rows 1 and 2 do not take its word (R96, R131). -/
def sysLowByteOk (nnn : Addr) : Bool := lowByte nnn != 0xE0#8 && lowByte nnn != 0xEE#8

/-- The well-formed instructions. -/
def WellFormed : Instr → Bool
  | .sys nnn => sysLowByteOk nnn
  | .cls | .ret | .jp _ | .call _ | .seVxNn _ _ | .sneVxNn _ _ | .seVxVy _ _ | .ldVxNn _ _ | .addVxNn _ _
  | .ldVxVy _ _ | .orVxVy _ _ | .andVxVy _ _ | .xorVxVy _ _ | .addVxVy _ _ | .subVxVy _ _ | .shrVx _
  | .shlVx _ | .sneVxVy _ _ | .ldINnn _ | .jpV0Nnn _ | .rndVxNn _ _ | .drw _ _ _ | .skp _ | .sknp _
  | .ldVxDt _ | .ldVxK _ | .ldDtVx _ | .ldStVx _ | .addIVx _ | .ldFVx _ | .ldBVx _ | .ldMemVx _
  | .ldVxMem _ => true

end Sys2Proof
end

