-- ==== Sys2Proof/Decode.lean ====
section
/-! DEFINITION. Decoding, total on any bytes and rejecting by name (R90 to R101), then the encoder written from
the same table of R96, the table itself as data, and the opcode table's numbering of an instruction's bits. -/

namespace Sys2Proof

/-! ### Fields (R92) -/

/-- `family = op[15:12]`. -/
def family (op : Word) : Nibble := op.extractLsb' 12 4
/-- `op[11:8]` as bits. -/
def nibbleX (op : Word) : Nibble := op.extractLsb' 8 4
/-- `op[7:4]` as bits. -/
def nibbleY (op : Word) : Nibble := op.extractLsb' 4 4
/-- `n = op[3:0]`. -/
def fieldN (op : Word) : Nibble := op.extractLsb' 0 4
/-- `nn = op[7:0]`. -/
def fieldNn (op : Word) : Byte := op.extractLsb' 0 8
/-- `nnn = op[11:0]`. -/
def fieldNnn (op : Word) : Addr := op.extractLsb' 0 12
/-- `x = op[11:8]`, the name of a register. -/
def fieldX (op : Word) : RegName := (nibbleX op).toFin
/-- `y = op[7:4]`, the name of a register. -/
def fieldY (op : Word) : RegName := (nibbleY op).toFin

/-! ### The decoder (R94) -/

/-- Why bytes are no instruction. -/
inductive DecodeReject where
  /-- An unknown word, one of the 10064 of R99. -/
  | unknownOpcode (op : Word)
  /-- Fewer than the two bytes every instruction has (R90). -/
  | truncated
  deriving DecidableEq, Repr

/-- Family 0x0 dispatches on the low byte; `op[11:8]` is ignored for `CLS` and `RET` (R94, R95). -/
def decodeFamily0 (op : Word) : Instr :=
  if fieldNn op = 0xE0#8 then .cls
  else if fieldNn op = 0xEE#8 then .ret
  else .sys (fieldNnn op)

/-- Family 0x8 dispatches on the low nibble (R94). -/
def decodeFamily8 (op : Word) : Except DecodeReject Instr :=
  match fieldN op with
  | 0x0#4 => .ok (.ldVxVy (fieldX op) (fieldY op))
  | 0x1#4 => .ok (.orVxVy (fieldX op) (fieldY op))
  | 0x2#4 => .ok (.andVxVy (fieldX op) (fieldY op))
  | 0x3#4 => .ok (.xorVxVy (fieldX op) (fieldY op))
  | 0x4#4 => .ok (.addVxVy (fieldX op) (fieldY op))
  | 0x5#4 => .ok (.subVxVy (fieldX op) (fieldY op))
  | 0x6#4 => .ok (.shrVx (fieldX op))
  | 0xE#4 => .ok (.shlVx (fieldX op))
  | _ => .error (.unknownOpcode op)

/-- Family 0xE dispatches on the low byte (R94, R213). -/
def decodeFamilyE (op : Word) : Except DecodeReject Instr :=
  match fieldNn op with
  | 0x9E#8 => .ok (.skp (fieldX op))
  | 0xA1#8 => .ok (.sknp (fieldX op))
  | _ => .error (.unknownOpcode op)

/-- Family 0xF dispatches on the low byte (R94, R230). -/
def decodeFamilyF (op : Word) : Except DecodeReject Instr :=
  match fieldNn op with
  | 0x07#8 => .ok (.ldVxDt (fieldX op))
  | 0x0A#8 => .ok (.ldVxK (fieldX op))
  | 0x15#8 => .ok (.ldDtVx (fieldX op))
  | 0x18#8 => .ok (.ldStVx (fieldX op))
  | 0x1E#8 => .ok (.addIVx (fieldX op))
  | 0x29#8 => .ok (.ldFVx (fieldX op))
  | 0x33#8 => .ok (.ldBVx (fieldX op))
  | 0x55#8 => .ok (.ldMemVx (fieldX op))
  | 0x65#8 => .ok (.ldVxMem (fieldX op))
  | _ => .error (.unknownOpcode op)

/-- The dispatch on the high nibble, complete for all 65536 words (R94). -/
def decode (op : Word) : Except DecodeReject Instr :=
  match family op with
  | 0x0#4 => .ok (decodeFamily0 op)
  | 0x1#4 => .ok (.jp (fieldNnn op))
  | 0x2#4 => .ok (.call (fieldNnn op))
  | 0x3#4 => .ok (.seVxNn (fieldX op) (fieldNn op))
  | 0x4#4 => .ok (.sneVxNn (fieldX op) (fieldNn op))
  | 0x5#4 => .ok (.seVxVy (fieldX op) (fieldY op))
  | 0x6#4 => .ok (.ldVxNn (fieldX op) (fieldNn op))
  | 0x7#4 => .ok (.addVxNn (fieldX op) (fieldNn op))
  | 0x8#4 => decodeFamily8 op
  | 0x9#4 => .ok (.sneVxVy (fieldX op) (fieldY op))
  | 0xA#4 => .ok (.ldINnn (fieldNnn op))
  | 0xB#4 => .ok (.jpV0Nnn (fieldNnn op))
  | 0xC#4 => .ok (.rndVxNn (fieldX op) (fieldNn op))
  | 0xD#4 => .ok (.drw (fieldX op) (fieldY op) (fieldN op))
  | 0xE#4 => decodeFamilyE op
  | _ => decodeFamilyF op

/-- The instruction word of two bytes in memory order, big-endian: the first byte is the high-order one
(R65). -/
def wordOfBytes (hi lo : Byte) : Word := hi ++ lo

/-- The byte of a word at the lower address (R65). -/
def highByteOf (op : Word) : Byte := op.extractLsb' 8 8

/-- The byte of a word at the higher address (R65). -/
def lowByteOf (op : Word) : Byte := op.extractLsb' 0 8

/-- Decode the instruction at the front of a list of bytes, and what follows it (R90: always two bytes). -/
def decodeBytes : List Byte → Except DecodeReject (Instr × List Byte)
  | hi :: lo :: rest =>
    match decode (wordOfBytes hi lo) with
    | .ok i => .ok (i, rest)
    | .error e => .error e
  | _ => .error .truncated

/-! ### The encoder (R91, R96): the canonical encodings, every ignored field zero (R95) -/

/-- A register name as the bits of its field. -/
def nibbleOf (x : RegName) : Nibble := BitVec.ofFin x

/-- Format `NNN`. -/
def packNnn (f : Nibble) (nnn : Addr) : Word := f ++ nnn

/-- Format `XNN`, and format `X` with a sub-opcode as its low byte. -/
def packXNn (f : Nibble) (x : RegName) (nn : Byte) : Word := (f ++ nibbleOf x : BitVec 8) ++ nn

/-- Format `XYN`, and format `XY` with a sub-opcode as its low nibble. -/
def packXYN (f : Nibble) (x y : RegName) (n : Nibble) : Word :=
  (f ++ nibbleOf x : BitVec 8) ++ (nibbleOf y ++ n : BitVec 8)

/-- The word an assembler emits for an instruction. -/
def encode : Instr → Word
  | .cls => 0x00E0#16
  | .ret => 0x00EE#16
  | .sys nnn => packNnn 0x0#4 nnn
  | .jp nnn => packNnn 0x1#4 nnn
  | .call nnn => packNnn 0x2#4 nnn
  | .seVxNn x nn => packXNn 0x3#4 x nn
  | .sneVxNn x nn => packXNn 0x4#4 x nn
  | .seVxVy x y => packXYN 0x5#4 x y 0x0#4
  | .ldVxNn x nn => packXNn 0x6#4 x nn
  | .addVxNn x nn => packXNn 0x7#4 x nn
  | .ldVxVy x y => packXYN 0x8#4 x y 0x0#4
  | .orVxVy x y => packXYN 0x8#4 x y 0x1#4
  | .andVxVy x y => packXYN 0x8#4 x y 0x2#4
  | .xorVxVy x y => packXYN 0x8#4 x y 0x3#4
  | .addVxVy x y => packXYN 0x8#4 x y 0x4#4
  | .subVxVy x y => packXYN 0x8#4 x y 0x5#4
  | .shrVx x => packXYN 0x8#4 x 0 0x6#4
  | .shlVx x => packXYN 0x8#4 x 0 0xE#4
  | .sneVxVy x y => packXYN 0x9#4 x y 0x0#4
  | .ldINnn nnn => packNnn 0xA#4 nnn
  | .jpV0Nnn nnn => packNnn 0xB#4 nnn
  | .rndVxNn x nn => packXNn 0xC#4 x nn
  | .drw x y n => packXYN 0xD#4 x y n
  | .skp x => packXNn 0xE#4 x 0x9E#8
  | .sknp x => packXNn 0xE#4 x 0xA1#8
  | .ldVxDt x => packXNn 0xF#4 x 0x07#8
  | .ldVxK x => packXNn 0xF#4 x 0x0A#8
  | .ldDtVx x => packXNn 0xF#4 x 0x15#8
  | .ldStVx x => packXNn 0xF#4 x 0x18#8
  | .addIVx x => packXNn 0xF#4 x 0x1E#8
  | .ldFVx x => packXNn 0xF#4 x 0x29#8
  | .ldBVx x => packXNn 0xF#4 x 0x33#8
  | .ldMemVx x => packXNn 0xF#4 x 0x55#8
  | .ldVxMem x => packXNn 0xF#4 x 0x65#8

/-- The two bytes of an instruction as memory holds them (R65). -/
def encodeBytes (i : Instr) : List Byte := [highByteOf (encode i), lowByteOf (encode i)]

/-! ### The opcode table of R96 as data -/

/-- A row of the table: a word `w` selects it when `w &&& mask = bits` (R96). -/
structure OpcodeRow where
  num : Nat
  bits : Word
  mask : Word
  deriving DecidableEq, Repr

/-- Whether a word selects a row (R96). -/
def OpcodeRow.selects (r : OpcodeRow) (w : Word) : Bool := (w &&& r.mask) == r.bits

/-- Rows 1 to 10 of R96. -/
def opcodeRowsLow : List OpcodeRow :=
  [⟨1, 0x00E0, 0xF0FF⟩, ⟨2, 0x00EE, 0xF0FF⟩, ⟨3, 0x0000, 0xF000⟩, ⟨4, 0x1000, 0xF000⟩, ⟨5, 0x2000, 0xF000⟩,
   ⟨6, 0x3000, 0xF000⟩, ⟨7, 0x4000, 0xF000⟩, ⟨8, 0x5000, 0xF000⟩, ⟨9, 0x6000, 0xF000⟩, ⟨10, 0x7000, 0xF000⟩]

/-- Rows 11 to 23 of R96. -/
def opcodeRowsMiddle : List OpcodeRow :=
  [⟨11, 0x8000, 0xF00F⟩, ⟨12, 0x8001, 0xF00F⟩, ⟨13, 0x8002, 0xF00F⟩, ⟨14, 0x8003, 0xF00F⟩,
   ⟨15, 0x8004, 0xF00F⟩, ⟨16, 0x8005, 0xF00F⟩, ⟨17, 0x8006, 0xF00F⟩, ⟨18, 0x800E, 0xF00F⟩,
   ⟨19, 0x9000, 0xF000⟩, ⟨20, 0xA000, 0xF000⟩, ⟨21, 0xB000, 0xF000⟩, ⟨22, 0xC000, 0xF000⟩,
   ⟨23, 0xD000, 0xF000⟩]

/-- Rows 24 to 34 of R96. -/
def opcodeRowsHigh : List OpcodeRow :=
  [⟨24, 0xE09E, 0xF0FF⟩, ⟨25, 0xE0A1, 0xF0FF⟩, ⟨26, 0xF007, 0xF0FF⟩, ⟨27, 0xF00A, 0xF0FF⟩,
   ⟨28, 0xF015, 0xF0FF⟩, ⟨29, 0xF018, 0xF0FF⟩, ⟨30, 0xF01E, 0xF0FF⟩, ⟨31, 0xF029, 0xF0FF⟩,
   ⟨32, 0xF033, 0xF0FF⟩, ⟨33, 0xF055, 0xF0FF⟩, ⟨34, 0xF065, 0xF0FF⟩]

/-- The table of R96. Its order is its priority: rows 1 and 2 are tested before row 3. -/
def opcodeTable : List OpcodeRow := opcodeRowsLow ++ opcodeRowsMiddle ++ opcodeRowsHigh

/-- The row a word selects, by mask and match alone (R96). -/
def tableRow (w : Word) : Option Nat := (opcodeTable.find? (·.selects w)).map (·.num)

/-! ### The opcode table's numbering of bits -/

/-- The instruction word whose bits are `w`, the bits from `nbits` up being zero: an instruction is one 16-bit
word, so bit 0 of `w` is bit 0 of the word (R8, R90). -/
def tableWord (nbits w : Nat) : Word := BitVec.ofNat 16 (w % 2 ^ nbits)

/-- The instruction the decoder reads from the bytes of that word, laid out as memory holds them. -/
def decodeTableWord (nbits w : Nat) : Option Instr :=
  match decodeBytes [highByteOf (tableWord nbits w), lowByteOf (tableWord nbits w)] with
  | .ok (i, _) => some i
  | .error _ => none

end Sys2Proof
end

