-- ==== Sys2Proof/Config.lean ====
section
/-! DEFINITION. What is fixed for the machine (the parameters of R7) and the one free value the spec leaves
open. `FONT_ROM` is an argument wherever the machine depends on it. -/

namespace Sys2Proof.Config

/-- `MEM_SIZE`: 4096 bytes, addresses 0x000 to 0xFFF (R7, R60). -/
@[simp] abbrev memSize : Nat := 4096

/-- `PROG_BASE`: the load address and the reset `PC` (R7, R45, R71). -/
@[simp] abbrev progBase : Nat := 0x200

/-- `MAX_PROG_LEN`: the longest image `load` accepts, 4096 - 512 bytes (R7, R305). -/
@[simp] abbrev maxProgLen : Nat := 3584

/-- `FONT_BASE`: where the font table is installed (R7, R36). -/
@[simp] abbrev fontBase : Nat := 0x050

/-- `FONT_GLYPH_BYTES`: the bytes of one glyph, one per row (R7, R36). -/
@[simp] abbrev glyphBytes : Nat := 5

/-- The type of `FONT_ROM`: 80 bytes, 16 glyphs of 5, top row first. The spec leaves the values to a parameter
(R38, R43, D24), so `reset` takes a table as its argument. -/
abbrev FontRom : Type := Vector Byte 80

/-- `FB_W`: the columns of the framebuffer (R7, R32). -/
@[simp] abbrev fbWidth : Nat := 64

/-- `FB_H`: the rows of the framebuffer (R7, R32). -/
@[simp] abbrev fbHeight : Nat := 32

/-- The `k`-th random byte that no host event has supplied: a FREE VALUE. The spec gives no generator, seed or
distribution ("any of the 256 values may be drawn at each execution", R164), so the constant has no body and
nothing can be proved of its values. Assumption log 1. -/
opaque freeDraw : Nat → Byte

end Sys2Proof.Config
end

