-- ==== Sys2Proof/Machine/State.lean ====
section
/-! DEFINITION. The state of the core as plain data (10_state.md), the reasons a step can stop, and the state
after reset. -/

namespace Sys2Proof.Machine

/-- An index outside its array, with the array it was meant for (R250: the spaces `mem`, `fb`, `key`). -/
inductive BadIndex where
  /-- A memory address above 4095 (R62, R63). -/
  | mem (addr : Nat)
  /-- The coordinates of a set sprite bit outside the 64 by 32 grid (R193). -/
  | fb (px py : Nat)
  /-- A key index above 15 (R211, R212). -/
  | key (k : Nat)
  deriving DecidableEq, Repr

/-- The five fault kinds of R250, each with the information it reports. A fault outcome carries no state: the
state after it is the state before (R252). Assumption log 7. -/
inductive Fault where
  /-- Raised by the `load` event, never by `step`: the image is longer than 3584 bytes (R258, R305). Safe: the
  hardware reports it too, and nothing is written. -/
  | loadError (length : Nat)
  /-- Raised by `step` at decode: the fetched word is one of the 10064 unknown words (R99). Safe: the hardware
  reports it too. -/
  | unknownOpcode (op pc : Word)
  /-- Raised by `step` at fetch, and by `DRW`, `SKP`, `SKNP`, `LD B`, `LD [I]`, `LD Vx, [I]` (R251). Safe: the
  hardware reports it too. -/
  | outOfBoundsAccess (index : BadIndex)
  /-- Raised by `CALL` with 16 entries on the stack (R134). Safe: the hardware reports it too. -/
  | stackOverflow (pc : Word)
  /-- Raised by `RET` with an empty stack (R136). Safe: the hardware reports it too. -/
  | stackUnderflow (pc : Word)
  deriving DecidableEq, Repr

/-- What the model gives no meaning. No instruction is refused. -/
inductive Refusal where
  /-- An arm of `exec` that has no meaning yet. No arm raises it: every instruction has its meaning. Safe. -/
  | notModelled (mnemonic : String)
  /-- Raised by `Session.issue`: an event other than `reset` before the first `reset` (R46, R310). Safe: the spec
  refuses the schedule. -/
  | beforeReset
  /-- Raised by `Session.issue`: a `load` after a successful `load` or after a `step`, with no `reset` between
  (R308). Safe: the spec refuses the schedule. -/
  | loadClosed
  deriving DecidableEq, Repr

/-- `MEM` as the bytes that differ from what `reset` leaves with the default font, by rising address; Sys2Proof/Machine/Memory.lean says
what an unlisted address reads as and what the canonical form is. -/
abbrev Memory := List Host.Cell

/-- `FB`: 32 rows of 64 one-bit pixels, bit `px` of row `py` being the pixel `FB[px + 64*py]` of R32. -/
abbrev Framebuffer := Vector (BitVec 64) 32

/-- The state of the core: the eleven rows of the table of 10_state.md, then two fields of the model's own. -/
structure State where
  /-- `V[0]` to `V[15]` (R20); `V[15]` is `VF` (R22). -/
  v : Vector Byte 16
  /-- The index register (R25). -/
  i : Word
  /-- The program counter (R26). -/
  pc : Word
  /-- The number of valid stack entries, 0 to 16 (R29). -/
  sp : Fin 17
  /-- `STACK[0]` to `STACK[15]` (R29). -/
  stack : Vector Word 16
  /-- The delay timer (R31). -/
  dt : Byte
  /-- The sound timer (R31). -/
  st : Byte
  /-- The framebuffer (R32). -/
  fb : Framebuffer
  /-- The redraw flag (R33). -/
  draw : Bool
  /-- The 16 key flags as one snapshot, bit `k` being `KEY[k]` (R34, R210). -/
  key : BitVec 16
  /-- The 4096 bytes of memory (R35). -/
  mem : Memory
  /-- The model's own: the draw the host supplied with the coming `step` event, if it did (R40). Log 1. -/
  rnd : Option Byte
  /-- The model's own: how many draws `RND` has used, the argument of `Config.freeDraw`. Log 1. -/
  rndCount : Nat
  deriving DecidableEq, Repr

/-- The machine right after reset (R45, R300), with the default `FONT_ROM` (log 4); with another it is
`State.resetWith` of Sys2Proof/Machine/Events.lean. `KEY` and `STACK`, which the `reset` event does not write, hold the
values that assumption log 2 and 3 choose, and the model's own two fields those of log 1. -/
def State.reset : State where
  v := Vector.replicate 16 0x00#8
  i := 0x0000#16
  pc := 0x0200#16
  sp := 0
  stack := Vector.replicate 16 0x0000#16
  dt := 0x00#8
  st := 0x00#8
  fb := Vector.replicate 32 0#64
  draw := true
  key := 0#16
  mem := []
  rnd := none
  rndCount := 0

end Sys2Proof.Machine
end

