-- ==== Sys2Proof/Machine/Font.lean ====
section
/-! DEFINITION. The default of the parameter `FONT_ROM` (R38), and the byte an unlisted address reads as. -/

namespace Sys2Proof.Machine

/-- Glyphs 0 to 7 of the default font of R38. PRESUMED: from general knowledge, not in the source (log 4). -/
def fontGlyphsLow : List Byte :=
  [0xF0, 0x90, 0x90, 0x90, 0xF0] ++ [0x20, 0x60, 0x20, 0x20, 0x70] ++
  [0xF0, 0x10, 0xF0, 0x80, 0xF0] ++ [0xF0, 0x10, 0xF0, 0x10, 0xF0] ++
  [0x90, 0x90, 0xF0, 0x10, 0x10] ++ [0xF0, 0x80, 0xF0, 0x10, 0xF0] ++
  [0xF0, 0x80, 0xF0, 0x90, 0xF0] ++ [0xF0, 0x10, 0x20, 0x40, 0x40]

/-- Glyphs 8 to F of the default font of R38. PRESUMED, as above (log 4). -/
def fontGlyphsHigh : List Byte :=
  [0xF0, 0x90, 0xF0, 0x90, 0xF0] ++ [0xF0, 0x90, 0xF0, 0x10, 0xF0] ++
  [0xF0, 0x90, 0xF0, 0x90, 0x90] ++ [0xE0, 0x90, 0xE0, 0x90, 0xE0] ++
  [0xF0, 0x80, 0x80, 0x80, 0xF0] ++ [0xE0, 0x90, 0x90, 0x90, 0xE0] ++
  [0xF0, 0x80, 0xF0, 0x80, 0xF0] ++ [0xF0, 0x80, 0xF0, 0x80, 0x80]

/-- The 80 bytes of the table of R38, in address order. -/
def defaultFontBytes : List Byte := fontGlyphsLow ++ fontGlyphsHigh

/-- The default of the parameter `FONT_ROM` (R38). `State.reset`, and with it Host.Core, takes it; the `reset` event and
the schedules take the font as an argument. Log 4. -/
def defaultFont : Config.FontRom := ⟨⟨defaultFontBytes⟩, rfl⟩

/-- The byte an address reads as that memory does not list: what `reset` leaves there with the default font (R45,
R70). It is a matter of representation: a memory with another font lists the bytes that differ (log 12). -/
def unlistedByte (a : Nat) : Byte :=
  if a < Config.fontBase then 0x00#8 else defaultFontBytes.getD (a - Config.fontBase) 0x00#8

end Sys2Proof.Machine
end

