-- ==== Sys2Proof/Machine/Memory.lean ====
section
/-! DEFINITION. Memory as a list of cells in one canonical form: reading a byte, writing bytes, the form itself,
and the range check of every access (20_memory.md). -/

namespace Sys2Proof.Machine

/-- The byte at an address that exists: the listed one, else the one it reads as by default (R70, R73). -/
def Memory.byteAt : Memory → Nat → Byte
  | [], a => unlistedByte a
  | (c, d) :: m, a => if c = a then d else Memory.byteAt m a

/-- Memory without a cell for an address. -/
def Memory.erase (m : Memory) (a : Nat) : Memory := m.filter fun p => p.1 != a

/-- Memory with one more cell, in its place by rising address. -/
def Memory.insert : Memory → Nat → Byte → Memory
  | [], a, b => [(a, b)]
  | (c, d) :: m, a, b => if a < c then (a, b) :: (c, d) :: m else (c, d) :: Memory.insert m a b

/-- Put a byte at an address, keeping the canonical form: the cells stay in rising order, and the value that an
unlisted address reads as is not listed. -/
def Memory.put (m : Memory) (a : Nat) (b : Byte) : Memory :=
  if b = unlistedByte a then Memory.erase m a else Memory.insert (Memory.erase m a) a b

/-- Put a run of bytes at ascending addresses, the first at `a` (R66). -/
def Memory.putAll : Memory → Nat → List Byte → Memory
  | m, _, [] => m
  | m, a, b :: bs => Memory.putAll (Memory.put m a b) (a + 1) bs

/-- Memory after `reset`: cleared, then `FONT_ROM` at 0x050 to 0x09F (R45, R300). With the default font nothing is
listed. -/
def resetMemory (font : Config.FontRom) : Memory := Memory.putAll [] Config.fontBase font.toList

/-- The bytes at `n` ascending addresses, the first at `a` (R66). -/
def Memory.bytesAt (m : Memory) : Nat → Nat → List Byte
  | _, 0 => []
  | a, n + 1 => Memory.byteAt m a :: Memory.bytesAt m (a + 1) n

/-- The canonical form from an address upward: rising addresses below 4096, and no byte that is what an unlisted
address reads as. -/
def Memory.wfFrom : Nat → Memory → Bool
  | _, [] => true
  | lo, (a, b) :: m =>
    decide (lo ≤ a) && decide (a < Config.memSize) && b != unlistedByte a && Memory.wfFrom (a + 1) m

/-- The canonical form of memory. -/
def Memory.wf (m : Memory) : Bool := Memory.wfFrom 0 m

/-- The lowest address above 4095 among `a, ..., a + n - 1`, if there is one. The addresses are naturals and wrap
nowhere (R62, R63); an access of no bytes has none (R64). -/
def firstOutside (a n : Nat) : Option Nat :=
  if n = 0 ∨ a + n ≤ Config.memSize then none else some (max a Config.memSize)

/-- `MemRead(a, 1)` (R10). -/
def Memory.read (m : Memory) (a : Nat) : Except Fault Byte :=
  if a < Config.memSize then .ok (m.byteAt a) else .error (.outOfBoundsAccess (.mem a))

/-- `MemRead` at `n` ascending addresses: all of them, or the fault of the lowest that is outside (R63). -/
def Memory.readAll (m : Memory) (a n : Nat) : Except Fault (List Byte) :=
  match firstOutside a n with
  | none => .ok (m.bytesAt a n)
  | some b => .error (.outOfBoundsAccess (.mem b))

/-- `MemWrite` at ascending addresses: every byte, or nothing and the fault of the lowest address that is outside
(R63, R252). -/
def Memory.writeAll (m : Memory) (a : Nat) (bs : List Byte) : Except Fault Memory :=
  match firstOutside a bs.length with
  | none => .ok (m.putAll a bs)
  | some b => .error (.outOfBoundsAccess (.mem b))

end Sys2Proof.Machine
end

