-- ==== Sys2Proof/Machine/Ops.lean ====
section
/-! DEFINITION. The named operations over the state that the meanings share: registers, program counter, stack,
framebuffer, draws, fetch, and the rejection of an instruction by a fault. -/

namespace Sys2Proof.Machine

/-- What an instruction answers. -/
abbrev Result := Host.Outcome State Fault Refusal

/-! ### Faults -/

/-- `raise`: the step ends, every write is discarded, the state stays as it was before (R10, R252). This is the
whole of the machine's exception mechanism: there is no handler, no saved `PC` or status and no return
(R256, R257). -/
def raise (f : Fault) : Result := .fault f

/-- The numeric code of a fault (R250). -/
def Fault.code : Fault → Nat
  | .loadError _ => 1
  | .unknownOpcode _ _ => 2
  | .outOfBoundsAccess _ => 3
  | .stackOverflow _ => 4
  | .stackUnderflow _ => 5

/-! ### Registers -/

/-- `V[x]` (R20). -/
def State.reg (s : State) (x : RegName) : Byte := s.v[x]

/-- `V[x] <- b` (R20): no register is hard-wired. -/
def State.setReg (s : State) (x : RegName) (b : Byte) : State := { s with v := s.v.set x b }

/-- `I <- w` (R25). -/
def State.setI (s : State) (w : Word) : State := { s with i := w }

/-- `DT <- b` (R31). -/
def State.setDt (s : State) (b : Byte) : State := { s with dt := b }

/-- `ST <- b` (R31). -/
def State.setSt (s : State) (b : Byte) : State := { s with st := b }

/-- Memory as a whole replaced, by a store or a load of a program. -/
def State.setMem (s : State) (m : Memory) : State := { s with mem := m }

/-- The name of `VF`, `V[15]` (R22). -/
def regVF : RegName := 15

/-- `V[0], ..., V[x]`, in that order (R227). -/
def State.regsUpTo (s : State) (x : RegName) : List Byte := s.v.toList.take (x.val + 1)

/-- `V[k] <- bs[k]` for every `k` that the list has (R228). -/
def State.setRegs (s : State) (bs : List Byte) : State :=
  { s with v := Vector.ofFn fun r : Fin 16 => bs.getD r.val s.v[r] }

/-! ### Program counter (R27, R28: modulo 65536) -/

/-- `PC <- w`. -/
def State.setPc (s : State) (w : Word) : State := { s with pc := w }

/-- `PC <- PC + 2`. -/
def State.advance (s : State) : State := s.setPc (s.pc + 2#16)

/-- A skip: `PC + 4` when the condition holds, else `PC + 2` (R150). -/
def State.skipIf (s : State) (c : Bool) : State := s.setPc (if c then s.pc + 4#16 else s.pc + 2#16)

/-! ### Call stack (R29) -/

/-- `STACK[SP] <- w; SP <- SP + 1`, or nothing when 16 entries are valid (R30, R134). -/
def State.push (s : State) (w : Word) : Option State :=
  if h : s.sp.val < 16 then
    some { s with stack := s.stack.set s.sp.val w, sp := ⟨s.sp.val + 1, by omega⟩ }
  else none

/-- `SP <- SP - 1`, with the entry that was on top, which stays in the array (R136); nothing when the stack is
empty (R30). -/
def State.pop (s : State) : Option (Word × State) :=
  if h : 0 < s.sp.val then
    some (s.stack[s.sp.val - 1], { s with sp := ⟨s.sp.val - 1, by omega⟩ })
  else none

/-! ### Framebuffer (R32, R33) -/

/-- The pixel at column `px`, row `py`, `FB[px + 64*py]`; off the grid there is no pixel and the answer is
`false`. -/
def Framebuffer.pixel (fb : Framebuffer) (px py : Nat) : Bool :=
  if h : py < 32 then fb[py].getLsbD px else false

/-- `FB[px + 64*py] <- FB[px + 64*py] xor 1`. Meanings flip pixels of the grid only. -/
def Framebuffer.flip (fb : Framebuffer) (px py : Nat) : Framebuffer :=
  if h : py < 32 then fb.set py (fb[py] ^^^ BitVec.twoPow 64 px) else fb

/-- The blank framebuffer: all 2048 pixels 0. -/
def Framebuffer.blank : Framebuffer := Vector.replicate 32 0#64

/-- A new framebuffer, with the redraw flag raised (R33). -/
def State.setFb (s : State) (fb : Framebuffer) : State := { s with fb := fb, draw := true }

/-! ### Keys (R34, R210) -/

/-- Whether key `k` of a snapshot is pressed. -/
def keyDown (keys : BitVec 16) (k : Nat) : Bool := keys.getLsbD k

/-- The lowest pressed index of a snapshot, if any key is pressed (R214). -/
def lowestKey (keys : BitVec 16) : Option Nat := (List.range 16).find? (keyDown keys)

/-! ### Random draws (R40, R164) -/

/-- The draw of the current step: the one the host supplied, else a free value (log 1). -/
def State.currentDraw (s : State) : Byte := s.rnd.getD (Config.freeDraw s.rndCount)

/-- The draw is used: the next one is another. -/
def State.useDraw (s : State) : State := { s with rnd := none, rndCount := s.rndCount + 1 }

/-! ### Fetch (R62, R65) -/

/-- `MEM[PC] ## MEM[PC + 1]`, with `PC + 1` a natural; the first read that is outside memory faults. -/
def State.fetch (s : State) : Except Fault Word :=
  match s.mem.read s.pc.toNat with
  | .error f => .error f
  | .ok hi =>
    match s.mem.read (s.pc.toNat + 1) with
    | .error f => .error f
    | .ok lo => .ok (wordOfBytes hi lo)

/-- Where a word can be placed for the next fetch: at `PC`, or at 0x200 when no word at `PC` could be fetched
(`PC > 4094`). Log 11. -/
def State.fetchHome (s : State) : Word := if s.pc.toNat + 1 < Config.memSize then s.pc else 0x0200#16

/-- The word stored where the next fetch reads, big-endian. Log 11. -/
def State.placeWord (s : State) (w : Word) : State :=
  (s.setPc s.fetchHome).setMem (s.mem.putAll s.fetchHome.toNat [highByteOf w, lowByteOf w])

end Sys2Proof.Machine
end

