-- ==== Sys2Proof/Machine/Operands.lean ====
section
/-! DEFINITION. The operand forms of the instructions: immediates, addresses, digits and sprites. -/

namespace Sys2Proof.Machine

/-- `zext_16(nnn)` (R93). -/
def zextAddr (nnn : Addr) : Word := nnn.setWidth 16

/-- `zext_16` of a byte, a register's value where it meets a 16-bit register (R138, R224, R225). -/
def zextByte (b : Byte) : Word := b.setWidth 16

/-- The base of a data access, as a natural (R63). -/
def State.dataBase (s : State) : Nat := s.i.toNat

/-- The number of registers a bulk transfer moves: `x + 1` (R227, R228). -/
def bulkCount (x : RegName) : Nat := x.val + 1

/-- The address of the glyph of a digit, `0x050 + 5 * d` on the whole 8-bit value (R225). -/
def glyphAddress (d : Byte) : Word := 0x0050#16 + 5#16 * zextByte d

/-- The three decimal digits of a byte: hundreds, tens, ones (R226). -/
def bcdDigits (b : Byte) : List Byte :=
  [BitVec.ofNat 8 (b.toNat / 100), BitVec.ofNat 8 (b.toNat / 10 % 10), BitVec.ofNat 8 (b.toNat % 10)]

/-- The pixels under the set bits of one sprite row at `(x0, y)`, left to right: column `c` is bit `7 - c` of the
byte (R191). -/
def rowPixels (x0 y : Nat) (row : Byte) : List (Nat × Nat) :=
  ((List.range 8).filter fun c => row.getLsbD (7 - c)).map fun c => (x0 + c, y)

/-- The pixels under the set bits of a sprite at `(x0, y0)`, in row-then-column order (R191, R192). -/
def spritePixels (x0 : Nat) : Nat → List Byte → List (Nat × Nat)
  | _, [] => []
  | y0, row :: rows => rowPixels x0 y0 row ++ spritePixels x0 (y0 + 1) rows

/-- Whether coordinates lie outside the 64 by 32 grid (R193). -/
def offGrid (p : Nat × Nat) : Bool := decide (Config.fbWidth ≤ p.1) || decide (Config.fbHeight ≤ p.2)

/-- Flip pixels one after the other, and report whether one of them was 1 when its turn came (R192). -/
def blit : Framebuffer → List (Nat × Nat) → Framebuffer × Bool
  | fb, [] => (fb, false)
  | fb, p :: ps =>
    let r := blit (Framebuffer.flip fb p.1 p.2) ps
    (r.1, Framebuffer.pixel fb p.1 p.2 || r.2)

end Sys2Proof.Machine
end

