-- ==== Sys2Proof/Machine/Flags.lean ====
section
/-! DEFINITION. The values that `VF` takes as a flag (the table of R23), and the write of a flag. -/

namespace Sys2Proof.Machine

/-- The carry of `ADD Vx, Vy`: the exact sum exceeds 255 (R174). -/
def carryOut (a b : Byte) : Bool := decide (255 < a.toNat + b.toNat)

/-- The flag of `SUB Vx, Vy`: no borrow occurred (R175). -/
def noBorrow (a b : Byte) : Bool := decide (b.toNat ≤ a.toNat)

/-- The bit `SHR Vx` shifts out (R176). -/
def lowBit (a : Byte) : Bool := a.getLsbD 0

/-- The bit `SHL Vx` shifts out (R177). -/
def highBit (a : Byte) : Bool := a.getLsbD 7

/-- A flag as a register's value, 1 or 0. -/
def flagByte (c : Bool) : Byte := if c then 0x01#8 else 0x00#8

/-- `V[15] <- 1 if c else 0`. -/
def State.setFlag (s : State) (c : Bool) : State := s.setReg regVF (flagByte c)

/-- The result to `V[x]`, then the flag to `VF`: the flag is written last, so with `x = 0xF` it wins (R24, R180).
Both are computed by the caller from the state before (R11). -/
def State.setResultThenFlag (s : State) (x : RegName) (b : Byte) (c : Bool) : State := (s.setReg x b).setFlag c

end Sys2Proof.Machine
end

