-- ==== Sys2Proof/Machine/Alu.lean ====
section
/-! DEFINITION. The register-register ALU family (43_alu.md). -/

namespace Sys2Proof.Machine

/-- `LD Vx, Vy` (R170). -/
def execLdVxVy (x y : RegName) (s : State) : Result := .next (s.setReg x (s.reg y)).advance

/-- `OR Vx, Vy` (R171). -/
def execOrVxVy (x y : RegName) (s : State) : Result := .next (s.setReg x (s.reg x ||| s.reg y)).advance

/-- `AND Vx, Vy` (R172). -/
def execAndVxVy (x y : RegName) (s : State) : Result := .next (s.setReg x (s.reg x &&& s.reg y)).advance

/-- `XOR Vx, Vy` (R173). -/
def execXorVxVy (x y : RegName) (s : State) : Result := .next (s.setReg x (s.reg x ^^^ s.reg y)).advance

/-- `ADD Vx, Vy` (R174). -/
def execAddVxVy (x y : RegName) (s : State) : Result :=
  .next (s.setResultThenFlag x (s.reg x + s.reg y) (carryOut (s.reg x) (s.reg y))).advance

/-- `SUB Vx, Vy` (R175). -/
def execSubVxVy (x y : RegName) (s : State) : Result :=
  .next (s.setResultThenFlag x (s.reg x - s.reg y) (noBorrow (s.reg x) (s.reg y))).advance

/-- `SHR Vx`: shifts `V[x]` in place (R176). -/
def execShrVx (x : RegName) (s : State) : Result :=
  .next (s.setResultThenFlag x (s.reg x >>> 1) (lowBit (s.reg x))).advance

/-- `SHL Vx`: shifts `V[x]` in place (R177). -/
def execShlVx (x : RegName) (s : State) : Result :=
  .next (s.setResultThenFlag x (s.reg x <<< 1) (highBit (s.reg x))).advance

end Sys2Proof.Machine
end

