-- ==== Sys2Proof/Machine/Control.lean ====
section
/-! DEFINITION. Control transfer and the call stack (40_control_transfer.md). -/

namespace Sys2Proof.Machine

/-- `RET` (R136). -/
def execRet (s : State) : Result :=
  match s.pop with
  | none => raise (.stackUnderflow s.pc)
  | some (w, t) => .next (t.setPc (w + 2#16))

/-- `SYS nnn`: a no-op advance (R131). -/
def execSys (_nnn : Addr) (s : State) : Result := .next s.advance

/-- `JP nnn` (R132). -/
def execJp (nnn : Addr) (s : State) : Result := .next (s.setPc (zextAddr nnn))

/-- `CALL nnn`: pushes the address of the `CALL` itself (R134). -/
def execCall (nnn : Addr) (s : State) : Result :=
  match s.push s.pc with
  | none => raise (.stackOverflow s.pc)
  | some t => .next (t.setPc (zextAddr nnn))

/-- `JP V0, nnn` (R138). -/
def execJpV0Nnn (nnn : Addr) (s : State) : Result := .next (s.setPc (zextAddr nnn + zextByte (s.reg 0)))

end Sys2Proof.Machine
end

