-- ==== Sys2Proof/Machine/Display.lean ====
section
/-! DEFINITION. The display instructions (44_display.md). -/

namespace Sys2Proof.Machine

/-- `CLS` (R190). -/
def execCls (s : State) : Result := .next (s.setFb Framebuffer.blank).advance

/-- `DRW Vx, Vy, n` (R192): all rows are read first, then every set bit is checked against the grid, then the
pixels are flipped. The coordinates are read before `VF` is written (R195). -/
def execDrw (x y : RegName) (n : Nibble) (s : State) : Result :=
  match s.mem.readAll s.dataBase n.toNat with
  | .error f => raise f
  | .ok rows =>
    match (spritePixels (s.reg x).toNat (s.reg y).toNat rows).find? offGrid with
    | some p => raise (.outOfBoundsAccess (.fb p.1 p.2))
    | none =>
      let r := blit s.fb (spritePixels (s.reg x).toNat (s.reg y).toNat rows)
      .next ((s.setFb r.1).setFlag r.2).advance

end Sys2Proof.Machine
end

