-- ==== Sys2Proof/Machine/Immediate.lean ====
section
/-! DEFINITION. Immediate loads, immediate add, index load and random (42_load_immediate_random.md). -/

namespace Sys2Proof.Machine

/-- `LD Vx, nn` (R161). -/
def execLdVxNn (x : RegName) (nn : Byte) (s : State) : Result := .next (s.setReg x nn).advance

/-- `ADD Vx, nn`: no flag (R162). -/
def execAddVxNn (x : RegName) (nn : Byte) (s : State) : Result := .next (s.setReg x (s.reg x + nn)).advance

/-- `LD I, nnn` (R163). -/
def execLdINnn (nnn : Addr) (s : State) : Result := .next (s.setI (zextAddr nnn)).advance

/-- `RND Vx, nn` (R164). -/
def execRndVxNn (x : RegName) (nn : Byte) (s : State) : Result :=
  .next (s.useDraw.setReg x (s.currentDraw &&& nn)).advance

end Sys2Proof.Machine
end

