-- ==== Sys2Proof/Machine/Keypad.lean ====
section
/-! DEFINITION. The keypad instructions (45_keypad.md). -/

namespace Sys2Proof.Machine

/-- `SKP Vx` (R211): a key index above 15 is reported, not masked. -/
def execSkp (x : RegName) (s : State) : Result :=
  if (s.reg x).toNat < 16 then .next (s.skipIf (keyDown s.key (s.reg x).toNat))
  else raise (.outOfBoundsAccess (.key (s.reg x).toNat))

/-- `SKNP Vx` (R212). -/
def execSknp (x : RegName) (s : State) : Result :=
  if (s.reg x).toNat < 16 then .next (s.skipIf (!keyDown s.key (s.reg x).toNat))
  else raise (.outOfBoundsAccess (.key (s.reg x).toNat))

/-- `LD Vx, K` (R214): with no key pressed the step changes nothing and the next step runs the instruction again;
its outcome is then `WAITING`, which `State.waits` tells. -/
def execLdVxK (x : RegName) (s : State) : Result :=
  match lowestKey s.key with
  | none => .next s
  | some k => .next (s.setReg x (BitVec.ofNat 8 k)).advance

/-- Whether running the instruction in this state is the outcome `WAITING` (R98, R214). -/
def State.waits (s : State) : Instr → Bool
  | .ldVxK _ => (lowestKey s.key).isNone
  | _ => false

end Sys2Proof.Machine
end

