-- ==== Sys2Proof/Machine/Skip.lean ====
section
/-! DEFINITION. The conditional skips on registers (41_conditional_skip.md). -/

namespace Sys2Proof.Machine

/-- `SE Vx, nn` (R151). -/
def execSeVxNn (x : RegName) (nn : Byte) (s : State) : Result := .next (s.skipIf (s.reg x == nn))

/-- `SNE Vx, nn` (R152). -/
def execSneVxNn (x : RegName) (nn : Byte) (s : State) : Result := .next (s.skipIf (s.reg x != nn))

/-- `SE Vx, Vy` (R153). -/
def execSeVxVy (x y : RegName) (s : State) : Result := .next (s.skipIf (s.reg x == s.reg y))

/-- `SNE Vx, Vy` (R154). -/
def execSneVxVy (x y : RegName) (s : State) : Result := .next (s.skipIf (s.reg x != s.reg y))

end Sys2Proof.Machine
end

