-- ==== Sys2Proof/Machine/TimerIndexMemory.lean ====
section
/-! DEFINITION. Timer access, index arithmetic, font address, BCD and bulk transfer
(46_timer_index_memory.md). -/

namespace Sys2Proof.Machine

/-- Store bytes at `I` and advance, or reject the instruction whole; `I` is unchanged (R226, R227). -/
def State.storeAtI (s : State) (bs : List Byte) : Result :=
  match s.mem.writeAll s.dataBase bs with
  | .error f => raise f
  | .ok m => .next (s.setMem m).advance

/-- `LD Vx, DT` (R221). -/
def execLdVxDt (x : RegName) (s : State) : Result := .next (s.setReg x s.dt).advance

/-- `LD DT, Vx` (R222). -/
def execLdDtVx (x : RegName) (s : State) : Result := .next (s.setDt (s.reg x)).advance

/-- `LD ST, Vx`: raises no tone (R223). -/
def execLdStVx (x : RegName) (s : State) : Result := .next (s.setSt (s.reg x)).advance

/-- `ADD I, Vx`: modulo 65536, no flag (R224). -/
def execAddIVx (x : RegName) (s : State) : Result := .next (s.setI (s.i + zextByte (s.reg x))).advance

/-- `LD F, Vx` (R225). -/
def execLdFVx (x : RegName) (s : State) : Result := .next (s.setI (glyphAddress (s.reg x))).advance

/-- `LD B, Vx` (R226). -/
def execLdBVx (x : RegName) (s : State) : Result := s.storeAtI (bcdDigits (s.reg x))

/-- `LD [I], Vx` (R227). -/
def execLdMemVx (x : RegName) (s : State) : Result := s.storeAtI (s.regsUpTo x)

/-- `LD Vx, [I]`: `I` grows by the number of registers loaded (R228). -/
def execLdVxMem (x : RegName) (s : State) : Result :=
  match s.mem.readAll s.dataBase (bulkCount x) with
  | .error f => raise f
  | .ok bs => .next ((s.setRegs bs).setI (s.i + BitVec.ofNat 16 (bulkCount x))).advance

end Sys2Proof.Machine
end

