-- ==== Sys2Proof/Machine/Step.lean ====
section
/-! DEFINITION. One `step` event: fetch, decode, execute (R97). It wraps nothing around `exec`. -/

namespace Sys2Proof.Machine

/-- The `step` event (R97). The first check that fails is the one reported: fetch, then decode, then the
instruction's own (R255). -/
def step (s : State) : Host.Outcome State Fault Refusal :=
  match s.fetch with
  | .error f => raise f
  | .ok op =>
    match decode op with
    | .error _ => raise (.unknownOpcode op s.pc)
    | .ok i => exec i s

/-- The state with the instruction whose bits are `w` (numbered as the opcode table numbers them) stored where the
next step fetches. It stands for a `load` of a program (log 11). -/
def State.withFetchWord (s : State) (nbits w : Nat) : State := s.placeWord (tableWord nbits w)

end Sys2Proof.Machine
end

