-- ==== Sys2Proof/Machine/Events.lean ====
section
/-! DEFINITION. The host's six events, one total function each (R12), their outputs (R41), and the schedules the
spec allows (70_reset_and_hazards.md). -/

namespace Sys2Proof.Machine

/-! ### The events that are not `step` -/

/-- The `reset` event, for a machine whose `FONT_ROM` is `font` (R43, R300): `STACK` and `KEY` are not written, nor
are the model's own two fields. -/
def State.resetEvent (font : Config.FontRom) (s : State) : State :=
  { State.reset with
    mem := resetMemory font, stack := s.stack, key := s.key, rnd := s.rnd, rndCount := s.rndCount }

/-- The machine right after reset with any `FONT_ROM` (R38); `State.reset` is the one with the default. -/
def State.resetWith (font : Config.FontRom) : State := State.reset.resetEvent font

/-- The machine with any `FONT_ROM`, as the host's interface sees it (R38, R43): the step is the same for all. -/
def coreWith (font : Config.FontRom) : Host.Core :=
  { State := State, Fault := Fault, Refusal := Refusal, step := step, reset := State.resetWith font }

/-- The `load` event (R305): all of the image, or nothing at all and `LoadError`. -/
def State.load (s : State) (bytes : List Byte) : Except Fault State :=
  if bytes.length ≤ Config.maxProgLen then .ok (s.setMem (s.mem.putAll Config.progBase bytes))
  else .error (.loadError bytes.length)

/-- A countdown by one that stops at 0 (R31, R272). -/
def countDown (b : Byte) : Byte := if b = 0x00#8 then 0x00#8 else b - 0x01#8

/-- The `tick` event and its tone pulse (R270, R271). -/
def State.tick (s : State) : State × Bool :=
  ((s.setDt (countDown s.dt)).setSt (countDown s.st), s.st == 0x01#8)

/-- The tone pulses of `n` ticks with nothing between them, in order, and the state after. -/
def State.ticks : Nat → State → State × List Bool
  | 0, s => (s, [])
  | n + 1, s =>
    let r := State.ticks n s.tick.1
    (r.1, s.tick.2 :: r.2)

/-- The `key_set(k, v)` event (R276). -/
def State.keySet (s : State) (k : Fin 16) (v : Bool) : State :=
  { s with key := if v then s.key ||| BitVec.twoPow 16 k.val else s.key &&& ~~~ (BitVec.twoPow 16 k.val) }

/-- The `redraw_ack` event (R279). -/
def State.redrawAck (s : State) : State := { s with draw := false }

/-- What the presenter reads between events: the pixels `FB[0..2047]` in order, and `DRAW` (R41, R278). -/
def State.presenterView (s : State) : List Bool × Bool :=
  ((List.range 2048).map fun p => Framebuffer.pixel s.fb (p % 64) (p / 64), s.draw)

/-! ### The `step` event with its draw and its outcome -/

/-- The outcome of a step as the host receives it (R98), and the step the model would refuse (no instruction is). -/
inductive StepOutcome where
  | done
  | waiting
  | fault (f : Fault)
  | refused (r : Refusal)
  deriving DecidableEq, Repr

/-- The instruction the next step would run, if the fetch and the decoding succeed. -/
def State.currentInstr (s : State) : Option Instr :=
  match s.fetch with
  | .error _ => none
  | .ok op =>
    match decode op with
    | .error _ => none
    | .ok i => some i

/-- Whether the next step would be the outcome `WAITING` (R98). -/
def State.stepWaits (s : State) : Bool := s.currentInstr.any s.waits

/-- The state with the host's draw for the coming step in place (R40). -/
def State.withDraw (s : State) (rnd : Byte) : State := { s with rnd := some rnd }

/-- The draw belongs to one step only (R164). -/
def State.dropDraw (s : State) : State := { s with rnd := none }

/-- The `step(rnd)` event: the state after it and its outcome. A fault leaves the state as it was (R98, R252). -/
def State.stepEvent (s : State) (rnd : Byte) : State × StepOutcome :=
  match step (s.withDraw rnd) with
  | .next t => (t.dropDraw, if s.stepWaits then .waiting else .done)
  | .fault f => (s, .fault f)
  | .refused r => (s, .refused r)

/-! ### Schedules -/

/-- The host's events (R12, R40). -/
inductive Event where
  | reset
  | load (bytes : List Byte)
  | step (rnd : Byte)
  | tick
  | keySet (k : Fin 16) (v : Bool)
  | redrawAck
  deriving DecidableEq, Repr

/-- What an event returns to the host (R41). -/
inductive Output where
  | none
  | outcome (o : StepOutcome)
  | loadOk
  | loadError (length : Nat)
  | tone (pulse : Bool)
  deriving DecidableEq, Repr

/-- How far a session is: before its first `reset`; after a `reset`, while a `load` is legal; after a successful
`load` or a `step`, until the next `reset` (R308, R310). It is the host's bookkeeping, no state of the core. -/
inductive Phase where
  | beforeReset
  | loadable
  | running
  deriving DecidableEq, Repr

/-- The core and how far its session is. Before the first `reset` the core may be in any state (R46). -/
structure Session where
  core : State
  phase : Phase
  deriving DecidableEq, Repr

/-- One event after a `reset` (R310), on a machine whose `FONT_ROM` is `font`. A `load` that returns `LoadError` does not count (R308). -/
def Session.issueAfterReset (font : Config.FontRom) (e : Event) (c : Session) : Except Refusal (Session × Output) :=
  match e with
  | .reset => .ok (⟨c.core.resetEvent font, .loadable⟩, .none)
  | .load bytes =>
    if c.phase = .loadable then
      match c.core.load bytes with
      | .ok t => .ok (⟨t, .running⟩, .loadOk)
      | .error _ => .ok (c, .loadError bytes.length)
    else .error .loadClosed
  | .step rnd => .ok (⟨(c.core.stepEvent rnd).1, .running⟩, .outcome (c.core.stepEvent rnd).2)
  | .tick => .ok (⟨c.core.tick.1, c.phase⟩, .tone c.core.tick.2)
  | .keySet k v => .ok (⟨c.core.keySet k v, c.phase⟩, .none)
  | .redrawAck => .ok (⟨c.core.redrawAck, c.phase⟩, .none)

/-- One event. Before the first `reset` only `reset` is legal (R46, R310). -/
def Session.issue (font : Config.FontRom) (e : Event) (c : Session) : Except Refusal (Session × Output) :=
  if c.phase = .beforeReset ∧ e ≠ .reset then .error .beforeReset else c.issueAfterReset font e

/-- A schedule: the events in order, with their outputs, up to the first one that is refused (R13). The font, the
schedule, the draws of its steps and the levels it writes into `KEY` are the parameters of R43. -/
def Session.run (font : Config.FontRom) : List Event → Session → Except Refusal (Session × List Output)
  | [], c => .ok (c, [])
  | e :: es, c =>
    match c.issue font e with
    | .error r => .error r
    | .ok (d, o) =>
      match Session.run font es d with
      | .error r => .error r
      | .ok (d', os) => .ok (d', o :: os)

end Sys2Proof.Machine
end

