-- ==== Sys2Proof/Safety.lean ====
section
/-! DEFINITION. The terms claims are stated in: what a frame leaves alone, the invariant of reachable states, what a
program cannot observe, the bits of a sprite, and the fault table of R251. -/

namespace Sys2Proof.Machine

/-! ### Frames -/

/-- The pieces of state of the table of 10_state.md; `draws` stands for the model's own two fields. -/
inductive Part where
  | regs | i | pc | sp | stack | dt | st | fb | draw | key | mem | draws
  deriving DecidableEq, Repr

/-- Every piece of state but the listed ones is the same in both states. Registers are compared one by one, memory
by the read of one byte at every address, pixels one by one. -/
def State.SameBut (s t : State) (changed : List Part) : Prop :=
  (Part.regs ∉ changed → ∀ r, t.reg r = s.reg r) ∧
  (Part.i ∉ changed → t.i = s.i) ∧
  (Part.pc ∉ changed → t.pc = s.pc) ∧
  (Part.sp ∉ changed → t.sp = s.sp) ∧
  (Part.stack ∉ changed → ∀ j : Fin 16, t.stack[j] = s.stack[j]) ∧
  (Part.dt ∉ changed → t.dt = s.dt) ∧
  (Part.st ∉ changed → t.st = s.st) ∧
  (Part.fb ∉ changed → ∀ px py, Framebuffer.pixel t.fb px py = Framebuffer.pixel s.fb px py) ∧
  (Part.draw ∉ changed → t.draw = s.draw) ∧
  (Part.key ∉ changed → t.key = s.key) ∧
  (Part.mem ∉ changed → ∀ a, t.mem.read a = s.mem.read a) ∧
  (Part.draws ∉ changed → t.rnd = s.rnd ∧ t.rndCount = s.rndCount)

/-- One register takes a value, `PC` advances by 2, and nothing else changes. -/
def State.WritesOnly (s t : State) (x : RegName) (b : Byte) : Prop :=
  t.reg x = b ∧ (∀ r, r ≠ x → t.reg r = s.reg r) ∧ t.pc = s.pc + 2#16 ∧ s.SameBut t [.regs, .pc]

/-- A register takes a result and `VF` a flag, the flag last; `PC` advances by 2 and nothing else changes. With
`x = 0xF` the flag is what stays (R24, R180). -/
def State.WritesResultAndFlag (s t : State) (x : RegName) (b : Byte) (c : Bool) : Prop :=
  t.reg 15 = (if c then 1#8 else 0#8) ∧ (x ≠ 15 → t.reg x = b) ∧ (∀ r, r ≠ x → r ≠ 15 → t.reg r = s.reg r) ∧
  t.pc = s.pc + 2#16 ∧ s.SameBut t [.regs, .pc]

/-! ### The invariant of reachable states -/

/-- What holds of every state that a run from `reset` reaches: memory is in its canonical form, `PC` is at most
0x10FE, and every valid stack entry is the address of a fetched `CALL` (R28, R30). -/
structure State.Inv (s : State) : Prop where
  memCanonical : s.mem.wf = true
  pcBound : s.pc.toNat ≤ 0x10FE
  stackBound : ∀ j : Fin 16, j.val < s.sp.val → s.stack[j].toNat ≤ 4094

/-! ### What a program cannot observe -/

/-- Two states that differ at most in the sound timer, the redraw flag and the stack entries at and above `SP`
(R45, R265). -/
structure State.SameToProgram (s t : State) : Prop where
  regs : ∀ r, t.reg r = s.reg r
  i : t.i = s.i
  pc : t.pc = s.pc
  sp : t.sp = s.sp
  validStack : ∀ j : Fin 16, j.val < s.sp.val → t.stack[j] = s.stack[j]
  dt : t.dt = s.dt
  fb : t.fb = s.fb
  key : t.key = s.key
  mem : t.mem = s.mem
  rnd : t.rnd = s.rnd
  rndCount : t.rndCount = s.rndCount

/-- Two answers of a step that a program cannot tell apart: the same fault, or next states that look the same. -/
def SameAnswer : Result → Result → Prop
  | .next s, .next t => s.SameToProgram t
  | .fault f, .fault g => f = g
  | .refused q, .refused r => q = r
  | .next _, .fault _ | .next _, .refused _ | .fault _, .next _ | .fault _, .refused _ | .refused _, .next _
  | .refused _, .fault _ => False

/-! ### Sprites -/

/-- Bit `(r, c)` of the sprite at `I`: bit `7 - c` of `MEM[I + r]` (R191). -/
def State.spriteBit (s : State) (r c : Nat) : Bool := (s.mem.byteAt (s.i.toNat + r)).getLsbD (7 - c)

/-- Some set bit of the `n`-row sprite at `(x0, y0)` maps to the pixel `(px, py)` (R191). -/
def State.Covers (s : State) (x0 y0 n px py : Nat) : Prop :=
  ∃ r c, r < n ∧ c < 8 ∧ s.spriteBit r c = true ∧ px = x0 + c ∧ py = y0 + r

/-- Bit `(r, c)` is set and outside the grid, and no set bit before it in row-then-column order is (R192, R193). -/
def State.FirstOffGrid (s : State) (x0 y0 n r c : Nat) : Prop :=
  r < n ∧ c < 8 ∧ s.spriteBit r c = true ∧ (63 < x0 + c ∨ 31 < y0 + r) ∧
  ∀ r' c', (r' < r ∨ r' = r ∧ c' < c) → c' < 8 → s.spriteBit r' c' = true → x0 + c' ≤ 63 ∧ y0 + r' ≤ 31

/-! ### The fault table of R251 -/

/-- Which fault an instruction raises after a successful fetch, and when (R251). -/
def faultTable (i : Instr) (s : State) (f : Fault) : Prop :=
  match i with
  | .call _ => s.sp.val = 16 ∧ f = .stackOverflow s.pc
  | .ret => s.sp.val = 0 ∧ f = .stackUnderflow s.pc
  | .drw x y n =>
    (1 ≤ n.toNat ∧ 4095 < s.i.toNat + n.toNat - 1 ∧ f = .outOfBoundsAccess (.mem (max s.i.toNat 4096))) ∨
    ((n.toNat = 0 ∨ s.i.toNat + n.toNat - 1 ≤ 4095) ∧
      ∃ r c, s.FirstOffGrid (s.reg x).toNat (s.reg y).toNat n.toNat r c ∧
        f = .outOfBoundsAccess (.fb ((s.reg x).toNat + c) ((s.reg y).toNat + r)))
  | .skp x | .sknp x => 15 < (s.reg x).toNat ∧ f = .outOfBoundsAccess (.key (s.reg x).toNat)
  | .ldBVx _ => 4095 < s.i.toNat + 2 ∧ f = .outOfBoundsAccess (.mem (max s.i.toNat 4096))
  | .ldMemVx x | .ldVxMem x =>
    4095 < s.i.toNat + x.val ∧ f = .outOfBoundsAccess (.mem (max s.i.toNat 4096))
  | .cls | .sys _ | .jp _ | .seVxNn _ _ | .sneVxNn _ _ | .seVxVy _ _ | .ldVxNn _ _ | .addVxNn _ _ | .ldVxVy _ _
  | .orVxVy _ _ | .andVxVy _ _ | .xorVxVy _ _ | .addVxVy _ _ | .subVxVy _ _ | .shrVx _ | .shlVx _
  | .sneVxVy _ _ | .ldINnn _ | .jpV0Nnn _ | .rndVxNn _ _ | .ldVxDt _ | .ldVxK _ | .ldDtVx _ | .ldStVx _
  | .addIVx _ | .ldFVx _ => False

/-! ### The unknown words of R99 -/

/-- The unknown words, as R99 lists them. -/
def UnknownWord (w : Word) : Prop :=
  (family w = 0x8#4 ∧ fieldN w ∈ [0x7#4, 0x8#4, 0x9#4, 0xA#4, 0xB#4, 0xC#4, 0xD#4, 0xF#4]) ∨
  (family w = 0xE#4 ∧ fieldNn w ∉ [0x9E#8, 0xA1#8]) ∨
  (family w = 0xF#4 ∧
    fieldNn w ∉ [0x07#8, 0x0A#8, 0x15#8, 0x18#8, 0x1E#8, 0x29#8, 0x33#8, 0x55#8, 0x65#8])

/-- The bits of an instruction's word that decoding does not ignore (R95). -/
def heededBits : Instr → Word
  | .cls | .ret => 0xF0FF#16
  | .seVxVy _ _ | .sneVxVy _ _ => 0xFFF0#16
  | .shrVx _ | .shlVx _ => 0xFF0F#16
  | .sys _ | .jp _ | .call _ | .seVxNn _ _ | .sneVxNn _ _ | .ldVxNn _ _ | .addVxNn _ _ | .ldVxVy _ _
  | .orVxVy _ _ | .andVxVy _ _ | .xorVxVy _ _ | .addVxVy _ _ | .subVxVy _ _ | .ldINnn _ | .jpV0Nnn _
  | .rndVxNn _ _ | .drw _ _ _ | .skp _ | .sknp _ | .ldVxDt _ | .ldVxK _ | .ldDtVx _ | .ldStVx _ | .addIVx _
  | .ldFVx _ | .ldBVx _ | .ldMemVx _ | .ldVxMem _ => 0xFFFF#16

/-! ### `PC` after an instruction, the destination of an instruction -/

/-- The table of R27: `PC` after an instruction that answers a next state. -/
def pcTable (i : Instr) (s t : State) : Prop :=
  match i with
  | .jp nnn | .call nnn => t.pc.toNat = nnn.toNat
  | .ret => ∀ j : Fin 16, j.val + 1 = s.sp.val → t.pc = s.stack[j] + 2#16
  | .jpV0Nnn nnn => t.pc.toNat = nnn.toNat + (s.reg 0).toNat
  | .seVxNn x nn => t.pc = if s.reg x = nn then s.pc + 4#16 else s.pc + 2#16
  | .sneVxNn x nn => t.pc = if s.reg x ≠ nn then s.pc + 4#16 else s.pc + 2#16
  | .seVxVy x y => t.pc = if s.reg x = s.reg y then s.pc + 4#16 else s.pc + 2#16
  | .sneVxVy x y => t.pc = if s.reg x ≠ s.reg y then s.pc + 4#16 else s.pc + 2#16
  | .skp x => t.pc = if keyDown s.key (s.reg x).toNat = true then s.pc + 4#16 else s.pc + 2#16
  | .sknp x => t.pc = if keyDown s.key (s.reg x).toNat = false then s.pc + 4#16 else s.pc + 2#16
  | .ldVxK _ => t.pc = if ∃ k : Fin 16, keyDown s.key k.val = true then s.pc + 2#16 else s.pc
  | .cls | .sys _ | .ldVxNn _ _ | .addVxNn _ _ | .ldVxVy _ _ | .orVxVy _ _ | .andVxVy _ _ | .xorVxVy _ _
  | .addVxVy _ _ | .subVxVy _ _ | .shrVx _ | .shlVx _ | .ldINnn _ | .rndVxNn _ _ | .drw _ _ _ | .ldVxDt _
  | .ldDtVx _ | .ldStVx _ | .addIVx _ | .ldFVx _ | .ldBVx _ | .ldMemVx _ | .ldVxMem _ => t.pc = s.pc + 2#16

/-- The register the field `x` names where it is the instruction's destination; for `LD Vx, [I]` the last of the
registers it loads (R23, R228). -/
def destReg : Instr → Option RegName
  | .ldVxNn x _ | .addVxNn x _ | .ldVxVy x _ | .orVxVy x _ | .andVxVy x _ | .xorVxVy x _ | .addVxVy x _
  | .subVxVy x _ | .shrVx x | .shlVx x | .rndVxNn x _ | .ldVxDt x | .ldVxK x | .ldVxMem x => some x
  | .cls | .ret | .sys _ | .jp _ | .call _ | .seVxNn _ _ | .sneVxNn _ _ | .seVxVy _ _ | .sneVxVy _ _ | .ldINnn _
  | .jpV0Nnn _ | .drw _ _ _ | .skp _ | .sknp _ | .ldDtVx _ | .ldStVx _ | .addIVx _ | .ldFVx _ | .ldBVx _
  | .ldMemVx _ => none

/-! ### The end of a run -/

/-- A final state: the instruction at `PC` is a jump to itself (R312). -/
def State.Final (s : State) : Prop := ∃ nnn : Addr, s.currentInstr = some (.jp nnn) ∧ nnn.toNat = s.pc.toNat

end Sys2Proof.Machine
end

