-- ==== Sys2Proof/Certificates/Slice0/Obligations.lean ====
section
/-! DEFINITION. The statements about the model for the provers. Each docstring names the rules of spec/ it
formalises. `s.SameBut t [...]` is the frame: every piece of state but the listed ones is the same. -/

open Sys2Proof Sys2Proof.Machine

/-! ### Encoding -/

/-- Decoding the word of a well-formed instruction gives the instruction back, with what follows it in a list of
bytes left over (R90, R92, R96). Twelve sub-opcode values are the spec's, from general knowledge (log 5). -/
def Obligations.DecodeOfEncodeIsTheInstruction : Prop :=
  ∀ (i : Instr) (rest : List Byte), WellFormed i = true →
    decode (encode i) = .ok i ∧ decodeBytes (encodeBytes i ++ rest) = .ok (i, rest)

/-- The decoder agrees with the table of R96: a word decodes to the instruction of the first row it selects by
mask and match, to none exactly when no row is selected, and rows other than 3 against 1 and 2 are disjoint. Twelve
sub-opcode values are the spec's, from general knowledge (log 5). -/
def Obligations.DecodeSelectsTheTableRow : Prop :=
  ∀ w : Word,
    (match decode w with
      | .ok i => some i.row
      | .error _ => none) = tableRow w ∧
    ∀ r ∈ opcodeTable, ∀ q ∈ opcodeTable, r.selects w = true → q.selects w = true →
      r = q ∨ (r.num ≤ 2 ∧ q.num = 3) ∨ (q.num ≤ 2 ∧ r.num = 3)

/-- Whatever decodes is well formed, and its canonical encoding is the word with the ignored bits zero: no bit that
matters is dropped (R95). -/
def Obligations.ReencodingZeroesOnlyIgnoredBits : Prop :=
  ∀ (w : Word) (i : Instr), decode w = .ok i → WellFormed i = true ∧ encode i = w &&& heededBits i

/-- A few words written out from the encodings of R96, one per family of the spec's files, decode to what they stand
for. -/
def Obligations.WrittenOutWordsDecode : Prop :=
  decode 0x0AEE#16 = .ok .ret ∧ decode 0x2210#16 = .ok (.call 0x210#12) ∧
  decode 0x332A#16 = .ok (.seVxNn 3 0x2A#8) ∧ decode 0xC20F#16 = .ok (.rndVxNn 2 0x0F#8) ∧
  decode 0x8125#16 = .ok (.subVxVy 1 2) ∧ decode 0xD125#16 = .ok (.drw 1 2 5#4) ∧
  decode 0xF20A#16 = .ok (.ldVxK 2) ∧ decode 0xF033#16 = .ok (.ldBVx 0) ∧
  decode 0x8127#16 = .error (.unknownOpcode 0x8127#16)

/-! ### The step -/

/-- The fetch succeeds exactly up to `PC = 4094`; at 4095 the second byte is outside memory, above that the first
(R62). -/
def Obligations.FetchSucceedsExactlyUpTo4094 : Prop :=
  ∀ s : State,
    ((∃ op, s.fetch = .ok op) ↔ s.pc.toNat ≤ 4094) ∧
    (s.pc.toNat = 4095 → step s = .fault (.outOfBoundsAccess (.mem 4096))) ∧
    (4096 ≤ s.pc.toNat → step s = .fault (.outOfBoundsAccess (.mem s.pc.toNat)))

/-- A step runs the instruction decoded from the two bytes at `PC`, the first being the high-order one, and adds
nothing around it (R65). -/
def Obligations.StepRunsTheDecodedInstruction : Prop :=
  ∀ (s : State) (op : Word) (i : Instr),
    s.pc.toNat ≤ 4094 →
    op.toNat = (s.mem.byteAt s.pc.toNat).toNat * 256 + (s.mem.byteAt (s.pc.toNat + 1)).toNat →
    decode op = .ok i →
    step s = exec i s

/-- The fetched word is one of the unknown words exactly when the step reports it as such, with no state changed
(R181, R213, R230). -/
def Obligations.UnknownWordsAreReportedWhole : Prop :=
  ∀ (s : State) (rnd : Byte) (op : Word),
    s.pc.toNat ≤ 4094 →
    op.toNat = (s.mem.byteAt s.pc.toNat).toNat * 256 + (s.mem.byteAt (s.pc.toNat + 1)).toNat →
    (UnknownWord op ↔ s.stepEvent rnd = (s, .fault (.unknownOpcode op s.pc)))

/-- A step faults exactly where R251 says, with exactly the fault it says: at the fetch, at decode, or by the table
of instructions; the 26 others never fault. -/
def Obligations.StepFaultsExactlyAsTheTableSays : Prop :=
  ∀ (s : State) (f : Fault),
    step s = .fault f ↔
      (s.pc.toNat = 4095 ∧ f = .outOfBoundsAccess (.mem 4096)) ∨
      (4096 ≤ s.pc.toNat ∧ f = .outOfBoundsAccess (.mem s.pc.toNat)) ∨
      (s.pc.toNat ≤ 4094 ∧ ∃ op : Word,
        op.toNat = (s.mem.byteAt s.pc.toNat).toNat * 256 + (s.mem.byteAt (s.pc.toNat + 1)).toNat ∧
        ((UnknownWord op ∧ f = .unknownOpcode op s.pc) ∨ ∃ i, decode op = .ok i ∧ faultTable i s f))

/-- No instruction and no step is refused: every row of the table has its meaning (R96, R98). -/
def Obligations.NoStepIsRefused : Prop :=
  ∀ (i : Instr) (s : State) (r : Refusal), exec i s ≠ .refused r ∧ step s ≠ .refused r

/-! ### Control transfer -/

/-- `SYS nnn` advances `PC` by 2 and changes nothing else, whatever `nnn` is (R131). -/
def Obligations.SysOnlyAdvancesPc : Prop :=
  ∀ (s : State) (nnn : Addr),
    ∃ t, exec (.sys nnn) s = .next t ∧ t.pc = s.pc + 2#16 ∧ s.SameBut t [.pc]

/-- `JP nnn` sets `PC` to `nnn`, whatever it is, and changes nothing else; after `JP 0xFFF` the next step faults at
fetch (R132). -/
def Obligations.JpSetsPcToTheAddress : Prop :=
  ∀ (s : State) (nnn : Addr),
    ∃ t, exec (.jp nnn) s = .next t ∧ t.pc.toNat = nnn.toNat ∧ s.SameBut t [.pc] ∧
      (nnn.toNat = 0xFFF → step t = .fault (.outOfBoundsAccess (.mem 4096)))

/-- `JP V0, nnn` sets `PC` to `nnn + V[0]`, not reduced modulo 4096, and changes nothing else; after a sum above 4094
the next step faults at fetch (R138). -/
def Obligations.JpV0AddsV0ToTheAddress : Prop :=
  ∀ (s : State) (nnn : Addr),
    ∃ t, exec (.jpV0Nnn nnn) s = .next t ∧ t.pc.toNat = nnn.toNat + (s.reg 0).toNat ∧ s.SameBut t [.pc] ∧
      (4094 < nnn.toNat + (s.reg 0).toNat → ∃ a, step t = .fault (.outOfBoundsAccess (.mem a)))

/-- `CALL nnn` pushes its own address and jumps; with 16 entries on the stack it faults (R134). -/
def Obligations.CallPushesItsOwnAddressOrOverflows : Prop :=
  ∀ (s : State) (nnn : Addr),
    (s.sp.val < 16 →
      ∃ t, exec (.call nnn) s = .next t ∧ t.sp.val = s.sp.val + 1 ∧
        (∀ j : Fin 16, t.stack[j] = if j.val = s.sp.val then s.pc else s.stack[j]) ∧
        t.pc.toNat = nnn.toNat ∧ s.SameBut t [.pc, .sp, .stack]) ∧
    (s.sp.val = 16 → exec (.call nnn) s = .fault (.stackOverflow s.pc))

/-- `RET` pops the top entry into `PC` plus 2; on an empty stack it faults (40_control_transfer.md R136). That the
popped entry stays where it was is the spec's own inference ("derived: from rule R29 of 10_state.md"). -/
def Obligations.RetPopsIntoPcPlusTwoOrUnderflows : Prop :=
  ∀ s : State,
    (0 < s.sp.val →
      ∃ t, exec .ret s = .next t ∧ t.sp.val + 1 = s.sp.val ∧
        (∀ j : Fin 16, j.val + 1 = s.sp.val → t.pc = s.stack[j] + 2#16) ∧ s.SameBut t [.pc, .sp]) ∧
    (s.sp.val = 0 → exec .ret s = .fault (.stackUnderflow s.pc))

/-- A `CALL` and the `RET` that answers it leave `PC` two past the `CALL` and `SP` as it was, at every depth below 16:
with the `RET` at the target, and with the `RET` reached later in any state that has `SP` back and the entry
(R140). -/
def Obligations.CallThenRetReturnsPastTheCall : Prop :=
  ∀ (s : State) (nnn : Addr), s.sp.val < 16 →
    (s.currentInstr = some (.call nnn) →
      ∃ t, step s = .next t ∧
        (t.currentInstr = some .ret → ∃ u, step t = .next u ∧ u.pc = s.pc + 2#16 ∧ u.sp = s.sp)) ∧
    (∃ t, exec (.call nnn) s = .next t ∧
      ∀ u : State, u.sp = t.sp → (∀ j : Fin 16, j.val = s.sp.val → u.stack[j] = t.stack[j]) →
        ∃ w, exec .ret u = .next w ∧ w.pc = s.pc + 2#16 ∧ w.sp = s.sp)

/-! ### Skips on registers -/

/-- `SE Vx, nn` and `SNE Vx, nn` advance by 4 on their condition, else by 2, and change only `PC` (R151, R152). -/
def Obligations.ImmediateSkipsAdvanceByFourOrTwo : Prop :=
  ∀ (s : State) (x : RegName) (nn : Byte),
    (∃ t, exec (.seVxNn x nn) s = .next t ∧
      t.pc = (if s.reg x = nn then s.pc + 4#16 else s.pc + 2#16) ∧ s.SameBut t [.pc]) ∧
    (∃ t, exec (.sneVxNn x nn) s = .next t ∧
      t.pc = (if s.reg x = nn then s.pc + 2#16 else s.pc + 4#16) ∧ s.SameBut t [.pc])

/-- `SE Vx, Vy` and `SNE Vx, Vy` advance by 4 on their condition, else by 2, and change only `PC` (R153, R154). -/
def Obligations.RegisterSkipsAdvanceByFourOrTwo : Prop :=
  ∀ (s : State) (x y : RegName),
    (∃ t, exec (.seVxVy x y) s = .next t ∧
      t.pc = (if s.reg x = s.reg y then s.pc + 4#16 else s.pc + 2#16) ∧ s.SameBut t [.pc]) ∧
    (∃ t, exec (.sneVxVy x y) s = .next t ∧
      t.pc = (if s.reg x = s.reg y then s.pc + 2#16 else s.pc + 4#16) ∧ s.SameBut t [.pc])

/-! ### Immediates and random -/

/-- `LD Vx, nn` writes `nn` to `V[x]`, `VF` included, and nothing else (R161). -/
def Obligations.LdVxNnWritesTheImmediate : Prop :=
  ∀ (s : State) (x : RegName) (nn : Byte),
    ∃ t, exec (.ldVxNn x nn) s = .next t ∧ s.WritesOnly t x nn

/-- `ADD Vx, nn` adds modulo 256 and writes no carry (R162). -/
def Obligations.AddVxNnWrapsWithoutACarry : Prop :=
  ∀ (s : State) (x : RegName) (nn : Byte),
    ∃ t, exec (.addVxNn x nn) s = .next t ∧
      s.WritesOnly t x (BitVec.ofNat 8 (((s.reg x).toNat + nn.toNat) % 256))

/-- `LD I, nnn` sets `I` to `nnn`, its high 4 bits 0, and changes nothing else but `PC` (R163). -/
def Obligations.LdINnnSetsIToTheAddress : Prop :=
  ∀ (s : State) (nnn : Addr),
    ∃ t, exec (.ldINnn nnn) s = .next t ∧ t.i.toNat = nnn.toNat ∧ t.pc = s.pc + 2#16 ∧ s.SameBut t [.i, .pc]

/-- `RND Vx, nn` writes the draw masked by `nn`, for every draw the host supplies with the step, and changes nothing
else but `PC` and the draw (R164). -/
def Obligations.RndMasksWhateverDrawComes : Prop :=
  ∀ (s : State) (x : RegName) (nn rnd : Byte),
    ∃ t, exec (.rndVxNn x nn) (s.withDraw rnd) = .next t ∧ t.reg x = rnd &&& nn ∧
      (∀ r, r ≠ x → t.reg r = s.reg r) ∧ t.pc = s.pc + 2#16 ∧ s.SameBut t [.regs, .pc, .draws]

/-- Where the host supplied no draw, `RND Vx, nn` masks the free value of this draw; with a draw or without, it is
used once and the next free value is another. The two fields a draw is held in are the model's choice (log 1). -/
def Obligations.RndWithoutADrawMasksTheFreeValue : Prop :=
  ∀ (s : State) (x : RegName) (nn : Byte),
    ∃ t, exec (.rndVxNn x nn) s = .next t ∧ t.rnd = none ∧ t.rndCount = s.rndCount + 1 ∧
      (s.rnd = none → t.reg x = Config.freeDraw s.rndCount &&& nn) ∧
      (∀ r, r ≠ x → t.reg r = s.reg r) ∧ t.pc = s.pc + 2#16 ∧ s.SameBut t [.regs, .pc, .draws]

/-! ### ALU -/

/-- `LD Vx, Vy` copies `V[y]` into `V[x]` and writes no flag (R170). -/
def Obligations.LdVxVyCopiesTheRegister : Prop :=
  ∀ (s : State) (x y : RegName),
    ∃ t, exec (.ldVxVy x y) s = .next t ∧ s.WritesOnly t x (s.reg y)

/-- `OR`, `AND` and `XOR` write the bitwise result to `V[x]` and nothing else (43_alu.md). That they leave `VF` alone
is the spec's own inference ("the source lists the VF side effect for ADD/SUB/shift variants only", R171). -/
def Obligations.LogicWritesOnlyTheResult : Prop :=
  ∀ (s : State) (x y : RegName),
    (∃ t b, exec (.orVxVy x y) s = .next t ∧ s.WritesOnly t x b ∧
      ∀ k, b.getLsbD k = ((s.reg x).getLsbD k || (s.reg y).getLsbD k)) ∧
    (∃ t b, exec (.andVxVy x y) s = .next t ∧ s.WritesOnly t x b ∧
      ∀ k, b.getLsbD k = ((s.reg x).getLsbD k && (s.reg y).getLsbD k)) ∧
    (∃ t b, exec (.xorVxVy x y) s = .next t ∧ s.WritesOnly t x b ∧
      ∀ k, b.getLsbD k = ((s.reg x).getLsbD k ^^ (s.reg y).getLsbD k))

/-- `ADD Vx, Vy`: the sum modulo 256 to `V[x]`, then the carry to `VF` (R174). -/
def Obligations.AddVxVyWritesSumThenCarry : Prop :=
  ∀ (s : State) (x y : RegName),
    ∃ t, exec (.addVxVy x y) s = .next t ∧
      s.WritesResultAndFlag t x (BitVec.ofNat 8 (((s.reg x).toNat + (s.reg y).toNat) % 256))
        (decide (255 < (s.reg x).toNat + (s.reg y).toNat))

/-- `SUB Vx, Vy`: the difference modulo 256 to `V[x]`, then 1 to `VF` when no borrow occurred, else 0 (43_alu.md). That
equal operands give 1 is the spec's own inference ("a borrow occurs exactly when the subtrahend exceeds the minuend",
R175). -/
def Obligations.SubVxVyWritesDifferenceThenNoBorrow : Prop :=
  ∀ (s : State) (x y : RegName),
    ∃ t, exec (.subVxVy x y) s = .next t ∧
      s.WritesResultAndFlag t x (BitVec.ofNat 8 (((s.reg x).toNat + 256 - (s.reg y).toNat) % 256))
        (decide ((s.reg y).toNat ≤ (s.reg x).toNat))

/-- `SHR Vx`: half of `V[x]` to `V[x]`, then the old bit 0 to `VF` (R176). -/
def Obligations.ShrVxWritesHalfThenOldBitZero : Prop :=
  ∀ (s : State) (x : RegName),
    ∃ t, exec (.shrVx x) s = .next t ∧
      s.WritesResultAndFlag t x (BitVec.ofNat 8 ((s.reg x).toNat / 2)) (decide ((s.reg x).toNat % 2 = 1))

/-- `SHL Vx`: twice `V[x]` modulo 256 to `V[x]`, then the old bit 7 to `VF` (R177). -/
def Obligations.ShlVxWritesDoubleThenOldBitSeven : Prop :=
  ∀ (s : State) (x : RegName),
    ∃ t, exec (.shlVx x) s = .next t ∧
      s.WritesResultAndFlag t x (BitVec.ofNat 8 ((s.reg x).toNat * 2 % 256)) (decide (128 ≤ (s.reg x).toNat))

/-! ### Display -/

/-- `CLS` blanks all 2048 pixels and raises the redraw flag, whatever was shown, and changes nothing else but `PC`
(R190). -/
def Obligations.ClsBlanksTheScreenAndRaisesRedraw : Prop :=
  ∀ s : State,
    ∃ t, exec .cls s = .next t ∧ (∀ px py, px < 64 → py < 32 → Framebuffer.pixel t.fb px py = false) ∧
      t.draw = true ∧ t.pc = s.pc + 2#16 ∧ s.SameBut t [.fb, .draw, .pc]

/-- `DRW Vx, Vy, n`: a row outside memory faults first, with the lowest such address; then the first set bit outside
the grid faults, with its coordinates; else the pixels under set bits are toggled and no other, `VF` tells whether one
of them was 1, and the redraw flag is raised (R192, R193, R194). -/
def Obligations.DrwTogglesTheSpriteOrFaultsWhole : Prop :=
  ∀ (s : State) (x y : RegName) (n : Nibble),
    (1 ≤ n.toNat → 4095 < s.i.toNat + n.toNat - 1 →
      exec (.drw x y n) s = .fault (.outOfBoundsAccess (.mem (max s.i.toNat 4096)))) ∧
    (n.toNat = 0 ∨ s.i.toNat + n.toNat - 1 ≤ 4095 →
      ∀ r c, s.FirstOffGrid (s.reg x).toNat (s.reg y).toNat n.toNat r c →
        exec (.drw x y n) s = .fault (.outOfBoundsAccess (.fb ((s.reg x).toNat + c) ((s.reg y).toNat + r)))) ∧
    (n.toNat = 0 ∨ s.i.toNat + n.toNat - 1 ≤ 4095 →
      (∀ r c, r < n.toNat → c < 8 → s.spriteBit r c = true →
        (s.reg x).toNat + c ≤ 63 ∧ (s.reg y).toNat + r ≤ 31) →
      ∃ t, exec (.drw x y n) s = .next t ∧
        (∀ px py, px < 64 → py < 32 →
          (Framebuffer.pixel t.fb px py ≠ Framebuffer.pixel s.fb px py ↔
            s.Covers (s.reg x).toNat (s.reg y).toNat n.toNat px py)) ∧
        ((∃ px py, s.Covers (s.reg x).toNat (s.reg y).toNat n.toNat px py ∧
          Framebuffer.pixel s.fb px py = true) → t.reg 15 = 1#8) ∧
        ((∀ px py, s.Covers (s.reg x).toNat (s.reg y).toNat n.toNat px py →
          Framebuffer.pixel s.fb px py = false) → t.reg 15 = 0#8) ∧
        t.draw = true ∧ (∀ r, r ≠ 15 → t.reg r = s.reg r) ∧ t.pc = s.pc + 2#16 ∧
        s.SameBut t [.regs, .fb, .draw, .pc])

/-- Drawing the identical sprite at the identical coordinates twice restores every pixel; the first draw collides
exactly when a covered pixel was 1, the second exactly when a covered pixel was 0. The exact conditions are the spec's
own inference ("derived: from rules R192 and R197", 44_display.md R198). -/
def Obligations.DrawingTwiceRestoresTheScreen : Prop :=
  ∀ (s t u : State) (x y : RegName) (n : Nibble),
    exec (.drw x y n) s = .next t →
    u.fb = t.fb → u.reg x = s.reg x → u.reg y = s.reg y → u.i = s.i →
    (∀ a, u.mem.byteAt a = s.mem.byteAt a) →
    ∃ w, exec (.drw x y n) u = .next w ∧ w.fb = s.fb ∧
      (t.reg 15 = 1#8 ↔ ∃ px py, s.Covers (s.reg x).toNat (s.reg y).toNat n.toNat px py ∧
        Framebuffer.pixel s.fb px py = true) ∧
      (w.reg 15 = 1#8 ↔ ∃ px py, s.Covers (s.reg x).toNat (s.reg y).toNat n.toNat px py ∧
        Framebuffer.pixel s.fb px py = false)

/-! ### Keypad -/

/-- `SKP Vx` and `SKNP Vx` skip on the level of key `V[x]`, and report an index above 15 (R211, R212). -/
def Obligations.KeySkipsReadTheLevelOrFault : Prop :=
  ∀ (s : State) (x : RegName),
    ((s.reg x).toNat ≤ 15 →
      (∃ t, exec (.skp x) s = .next t ∧
        t.pc = (if s.key.getLsbD (s.reg x).toNat then s.pc + 4#16 else s.pc + 2#16) ∧ s.SameBut t [.pc]) ∧
      (∃ t, exec (.sknp x) s = .next t ∧
        t.pc = (if s.key.getLsbD (s.reg x).toNat then s.pc + 2#16 else s.pc + 4#16) ∧ s.SameBut t [.pc])) ∧
    (15 < (s.reg x).toNat →
      exec (.skp x) s = .fault (.outOfBoundsAccess (.key (s.reg x).toNat)) ∧
      exec (.sknp x) s = .fault (.outOfBoundsAccess (.key (s.reg x).toNat)))

/-- `LD Vx, K` changes nothing while no key is pressed, and the step's outcome is `WAITING`; else it writes the lowest
pressed index and the outcome is `DONE` (R214). -/
def Obligations.KeyWaitHoldsOrTakesTheLowestKey : Prop :=
  ∀ (s : State) (x : RegName),
    ((∀ k, k < 16 → s.key.getLsbD k = false) →
      exec (.ldVxK x) s = .next s ∧
      (s.currentInstr = some (.ldVxK x) → s.rnd = none → ∀ rnd, s.stepEvent rnd = (s, .waiting))) ∧
    (∀ k, k < 16 → s.key.getLsbD k = true → (∀ j, j < k → s.key.getLsbD j = false) →
      (∃ t, exec (.ldVxK x) s = .next t ∧ s.WritesOnly t x (BitVec.ofNat 8 k)) ∧
      (s.currentInstr = some (.ldVxK x) → ∀ rnd, (s.stepEvent rnd).2 = .done))

/-- A step has one of three outcomes: `DONE`, with the writes of the instruction; `WAITING`, exactly for a key wait with
no key pressed; a fault. A `WAITING` step or a faulting one is an identity on the state (R98). -/
def Obligations.EveryStepIsDoneWaitingOrAFault : Prop :=
  ∀ (s : State) (rnd : Byte), s.rnd = none →
    ((s.stepEvent rnd).2 = .done ∨ (s.stepEvent rnd).2 = .waiting ∨ ∃ f, (s.stepEvent rnd).2 = .fault f) ∧
    ((s.stepEvent rnd).2 = .done →
      ∃ i t, s.currentInstr = some i ∧ exec i (s.withDraw rnd) = .next t ∧ (s.stepEvent rnd).1 = t.dropDraw) ∧
    ((s.stepEvent rnd).2 = .waiting ↔
      (∃ x, s.currentInstr = some (.ldVxK x)) ∧ ∀ k, k < 16 → s.key.getLsbD k = false) ∧
    ((s.stepEvent rnd).2 ≠ .done → (s.stepEvent rnd).1 = s)

/-! ### Timers, index, memory -/

/-- `LD Vx, DT` reads the delay timer and leaves it (R221). -/
def Obligations.LdVxDtReadsTheDelayTimer : Prop :=
  ∀ (s : State) (x : RegName),
    ∃ t, exec (.ldVxDt x) s = .next t ∧ s.WritesOnly t x s.dt

/-- `LD DT, Vx` and `LD ST, Vx` write one timer and nothing else but `PC` (R222, R223). -/
def Obligations.TimerLoadsWriteOneTimer : Prop :=
  ∀ (s : State) (x : RegName),
    (∃ t, exec (.ldDtVx x) s = .next t ∧ t.dt = s.reg x ∧ t.pc = s.pc + 2#16 ∧ s.SameBut t [.dt, .pc]) ∧
    (∃ t, exec (.ldStVx x) s = .next t ∧ t.st = s.reg x ∧ t.pc = s.pc + 2#16 ∧ s.SameBut t [.st, .pc])

/-- `ADD I, Vx` adds modulo 65536 and writes no flag (R224). -/
def Obligations.AddIVxWrapsWithoutAFlag : Prop :=
  ∀ (s : State) (x : RegName),
    ∃ t, exec (.addIVx x) s = .next t ∧ t.i.toNat = (s.i.toNat + (s.reg x).toNat) % 65536 ∧
      t.pc = s.pc + 2#16 ∧ s.SameBut t [.i, .pc]

/-- `LD F, Vx` sets `I` to `0x050 + 5 * V[x]`, the whole 8-bit value, reading no memory (R225). -/
def Obligations.LdFVxPointsIAtTheGlyph : Prop :=
  ∀ (s : State) (x : RegName),
    ∃ t, exec (.ldFVx x) s = .next t ∧ t.i.toNat = 0x050 + 5 * (s.reg x).toNat ∧
      t.pc = s.pc + 2#16 ∧ s.SameBut t [.i, .pc]

/-- `LD B, Vx` stores hundreds, tens and ones at `I`, `I + 1` and `I + 2` and no other byte, or faults with the lowest
address outside memory (R226). -/
def Obligations.LdBVxStoresThreeDigitsOrFaults : Prop :=
  ∀ (s : State) (x : RegName),
    (s.i.toNat + 2 ≤ 4095 →
      ∃ t, exec (.ldBVx x) s = .next t ∧
        t.mem.read s.i.toNat = .ok (BitVec.ofNat 8 ((s.reg x).toNat / 100)) ∧
        t.mem.read (s.i.toNat + 1) = .ok (BitVec.ofNat 8 ((s.reg x).toNat / 10 % 10)) ∧
        t.mem.read (s.i.toNat + 2) = .ok (BitVec.ofNat 8 ((s.reg x).toNat % 10)) ∧
        (∀ a, a < s.i.toNat ∨ s.i.toNat + 2 < a → t.mem.read a = s.mem.read a) ∧
        t.pc = s.pc + 2#16 ∧ s.SameBut t [.mem, .pc]) ∧
    (4095 < s.i.toNat + 2 → exec (.ldBVx x) s = .fault (.outOfBoundsAccess (.mem (max s.i.toNat 4096))))

/-- `LD [I], Vx` stores `V[0]` to `V[x]` at `I` upward and no other byte, leaving `I`, or faults with the lowest address
outside memory (R227). -/
def Obligations.LdMemVxStoresTheRegistersOrFaults : Prop :=
  ∀ (s : State) (x : RegName),
    (s.i.toNat + x.val ≤ 4095 →
      ∃ t, exec (.ldMemVx x) s = .next t ∧
        (∀ r : RegName, r.val ≤ x.val → t.mem.read (s.i.toNat + r.val) = .ok (s.reg r)) ∧
        (∀ a, a < s.i.toNat ∨ s.i.toNat + x.val < a → t.mem.read a = s.mem.read a) ∧
        t.pc = s.pc + 2#16 ∧ s.SameBut t [.mem, .pc]) ∧
    (4095 < s.i.toNat + x.val →
      exec (.ldMemVx x) s = .fault (.outOfBoundsAccess (.mem (max s.i.toNat 4096))))

/-- `LD Vx, [I]` loads `V[0]` to `V[x]` from `I` upward and adds `x + 1` to `I`, or faults with the lowest address
outside memory (R228). -/
def Obligations.LdVxMemLoadsTheRegistersOrFaults : Prop :=
  ∀ (s : State) (x : RegName),
    (s.i.toNat + x.val ≤ 4095 →
      ∃ t, exec (.ldVxMem x) s = .next t ∧
        (∀ r : RegName, r.val ≤ x.val → s.mem.read (s.i.toNat + r.val) = .ok (t.reg r)) ∧
        (∀ r : RegName, x.val < r.val → t.reg r = s.reg r) ∧
        t.i.toNat = s.i.toNat + x.val + 1 ∧ t.pc = s.pc + 2#16 ∧ s.SameBut t [.regs, .i, .pc]) ∧
    (4095 < s.i.toNat + x.val →
      exec (.ldVxMem x) s = .fault (.outOfBoundsAccess (.mem (max s.i.toNat 4096))))

/-- A store leaves `I`, and a later load with the same `x`, from any state that still has that `I` and that memory,
reads the stored registers back and advances `I` once (R229). -/
def Obligations.StoreThenLoadReadsBackTheRegisters : Prop :=
  ∀ (s : State) (x : RegName), s.i.toNat + x.val ≤ 4095 →
    ∃ t, exec (.ldMemVx x) s = .next t ∧ t.i = s.i ∧
      ∀ u : State, u.i = t.i → (∀ a, u.mem.read a = t.mem.read a) →
        ∃ w, exec (.ldVxMem x) u = .next w ∧ (∀ r : RegName, r.val ≤ x.val → w.reg r = s.reg r) ∧
          w.i.toNat = s.i.toNat + x.val + 1

/-- A store over the next instruction is what the next step fetches and runs: there is no instruction cache and no
prefetch. The spec marks this as its own inference (20_memory.md R77, from R62 and R73). -/
def Obligations.StoreIsSeenByTheNextFetch : Prop :=
  ∀ (s : State) (x : RegName),
    s.currentInstr = some (.ldMemVx x) → 1 ≤ x.val → s.i.toNat = s.pc.toNat + 2 → s.i.toNat + x.val ≤ 4095 →
    ∃ t, step s = .next t ∧ t.fetch = .ok (wordOfBytes (s.reg 0) (s.reg 1)) ∧
      ∀ i, decode (wordOfBytes (s.reg 0) (s.reg 1)) = .ok i → step t = exec i t

/-! ### The other events -/

/-- A `tick` takes one from each timer that is above 0, returns a tone pulse exactly when the sound timer was 1, and
touches nothing else (R270). -/
def Obligations.TickCountsBothTimersDown : Prop :=
  ∀ s : State,
    s.tick.1.dt.toNat = s.dt.toNat - 1 ∧ s.tick.1.st.toNat = s.st.toNat - 1 ∧
    (s.tick.2 = true ↔ s.st.toNat = 1) ∧ s.SameBut s.tick.1 [.dt, .st]

/-- With `ST = n` and nothing between the ticks, only the `n`-th of them returns a tone pulse, and the timers reach 0
and stay there (60_exceptions.md R271, R272). -/
def Obligations.ToneSoundsOnceAtTheLastCount : Prop :=
  ∀ (s : State) (k j : Nat), j < k →
    (s.ticks k).2[j]? = some (decide (j + 1 = s.st.toNat)) ∧
    (s.ticks k).1.st.toNat = s.st.toNat - k ∧ (s.ticks k).1.dt.toNat = s.dt.toNat - k

/-- `key_set` writes one key flag and changes nothing else (R276). -/
def Obligations.KeySetWritesOneKeyFlag : Prop :=
  ∀ (s : State) (k : Fin 16) (v : Bool),
    (∀ j : Fin 16, (s.keySet k v).key.getLsbD j.val = if j = k then v else s.key.getLsbD j.val) ∧
    s.SameBut (s.keySet k v) [.key]

/-- `redraw_ack` lowers the redraw flag and changes nothing else; no other event lowers it, and a `CLS` or `DRW`
completed afterwards raises it again (R279). -/
def Obligations.RedrawAckAloneLowersTheRedrawFlag : Prop :=
  (∀ s : State, s.redrawAck.draw = false ∧ s.SameBut s.redrawAck [.draw]) ∧
  (∀ (font : Config.FontRom) (c d : Session) (e : Event) (o : Output),
    c.issue font e = .ok (d, o) → c.core.draw = true → d.core.draw = false → e = .redrawAck) ∧
  (∀ (s t : State) (i : Instr), exec i s.redrawAck = .next t → (i = .cls ∨ ∃ x y n, i = .drw x y n) → t.draw = true)

/-- From any state and for every `FONT_ROM`, the `reset` event gives every piece of state the value the spec states,
and leaves `KEY` as it was (R45, R300). `STACK`, which the spec leaves unspecified, is not spoken of. -/
def Obligations.ResetEventGivesTheStatedValues : Prop :=
  ∀ (font : Config.FontRom) (s : State),
    (∀ r, (s.resetEvent font).reg r = 0#8) ∧ (s.resetEvent font).i = 0#16 ∧ (s.resetEvent font).pc = 0x0200#16 ∧
    (s.resetEvent font).sp = 0 ∧ (s.resetEvent font).dt = 0#8 ∧ (s.resetEvent font).st = 0#8 ∧
    (∀ px py, px < 64 → py < 32 → Framebuffer.pixel (s.resetEvent font).fb px py = false) ∧
    (s.resetEvent font).draw = true ∧
    (∀ j : Fin 80, (s.resetEvent font).mem.read (0x050 + j.val) = .ok font[j]) ∧
    (∀ a, a < 0x050 ∨ 0x09F < a → a < 4096 → (s.resetEvent font).mem.read a = .ok 0#8) ∧
    s.SameBut (s.resetEvent font) [.regs, .i, .pc, .sp, .stack, .dt, .st, .fb, .draw, .mem]

/-- `load` copies the image to 0x200 upward and changes no other byte and nothing else, or rejects an image longer
than 3584 bytes with no effect (R305, R306). -/
def Obligations.LoadCopiesTheImageOrRejectsItWhole : Prop :=
  ∀ (s : State) (bytes : List Byte),
    (bytes.length ≤ 3584 →
      ∃ t, s.load bytes = .ok t ∧
        (∀ k b, bytes[k]? = some b → t.mem.read (0x200 + k) = .ok b) ∧
        (∀ a, a < 0x200 ∨ 0x200 + bytes.length ≤ a → t.mem.read a = s.mem.read a) ∧
        s.SameBut t [.mem]) ∧
    (3584 < bytes.length →
      s.load bytes = .error (.loadError bytes.length) ∧
      ∀ (font : Config.FontRom) (c : Session), c.core = s → c.phase = .loadable →
        c.issue font (.load bytes) = .ok (c, .loadError bytes.length))

/-- After a `reset` a `load` is legal until one succeeds (one that returns `LoadError` does not count) or a `step` comes;
from then on every `load` is refused, whatever events pass, until the next `reset` (R308). -/
def Obligations.LoadIsLegalOnceBeforeTheFirstStep : Prop :=
  ∀ font : Config.FontRom,
    (∀ c : Session, ∃ d, c.issue font .reset = .ok (d, .none) ∧ d.phase = .loadable) ∧
    (∀ (c : Session) (bytes : List Byte), c.phase = .loadable →
      (bytes.length ≤ 3584 → ∃ d, c.issue font (.load bytes) = .ok (d, .loadOk)) ∧
      (3584 < bytes.length → c.issue font (.load bytes) = .ok (c, .loadError bytes.length))) ∧
    (∀ (c d : Session) (ev : Event) (o : Output), c.phase = .loadable → c.issue font ev = .ok (d, o) →
      o ≠ .loadOk → (∀ rnd, ev ≠ .step rnd) → d.phase = .loadable) ∧
    (∀ (c d e : Session) (ev : Event) (o : Output) (es : List Event) (os : List Output) (bytes : List Byte),
      c.issue font ev = .ok (d, o) → (o = .loadOk ∨ ∃ rnd, ev = .step rnd) →
      Session.run font es d = .ok (e, os) → Event.reset ∉ es →
      e.issue font (.load bytes) = .error .loadClosed)

/-- A faulting step leaves every piece of state as it was, and a further step from there raises the same fault,
whatever its draw (R252; 60_exceptions.md R253). -/
def Obligations.FaultingStepChangesNothingAndRepeats : Prop :=
  ∀ (s : State) (rnd : Byte) (f : Fault), (s.stepEvent rnd).2 = .fault f →
    (s.stepEvent rnd).1 = s ∧ ∀ rnd', s.stepEvent rnd' = (s, .fault f)

/-! ### Whole-machine rules -/

/-- Every step keeps the invariant: canonical memory, `PC` at most 0x10FE, valid stack entries at most 4094. The
bounds are the spec's own inference (10_state.md R28, R30). -/
def Obligations.EveryStepKeepsTheInvariant : Prop :=
  ∀ s t : State, s.Inv → step s = .next t → t.Inv

/-- The state after reset meets the invariant, with the default `FONT_ROM` and with every other (10_state.md R38,
R45). -/
def Obligations.ResetMeetsTheInvariant : Prop :=
  State.reset.Inv ∧ ∀ (font : Config.FontRom) (s : State), (s.resetEvent font).Inv

/-- Whatever the font, and whatever schedule of events is accepted from whatever state before the first `reset`, the
invariant holds after the first `reset` on (10_state.md R28, R30, 70_reset_and_hazards.md R310). -/
def Obligations.EveryScheduleKeepsTheInvariant : Prop :=
  ∀ (font : Config.FontRom) (es : List Event) (c d : Session) (os : List Output),
    Session.run font es c = .ok (d, os) → (c.phase ≠ .beforeReset → c.core.Inv) →
    d.phase ≠ .beforeReset → d.core.Inv

/-- Memories in canonical form that read the same are the same data, so equality of states is equality of what can be
read (the model's representation, log 12). -/
def Obligations.CanonicalMemoryIsDeterminedByReads : Prop :=
  ∀ m n : Memory, m.wf = true → n.wf = true → (∀ a, m.read a = n.read a) → m = n

/-- A program can observe neither the sound timer, nor the redraw flag, nor a stack entry at or above `SP`: states
that differ only there answer a step alike (60_exceptions.md R265, 10_state.md R29, R45). -/
def Obligations.ProgramCannotObserveSoundRedrawOrStaleStack : Prop :=
  ∀ s t : State, s.SameToProgram t → SameAnswer (step s) (step t)

/-- `PC` after every instruction is what the table of R27 says, and a faulting step leaves it. -/
def Obligations.PcAfterEveryInstruction : Prop :=
  (∀ (i : Instr) (s t : State), exec i s = .next t → pcTable i s t) ∧
  (∀ (s : State) (rnd : Byte) (f : Fault), (s.stepEvent rnd).2 = .fault f → (s.stepEvent rnd).1.pc = s.pc)

/-- Each piece of state is written only by the instructions that the table of 10_state.md names for it; `KEY` by none,
and `DRAW` is only ever raised. -/
def Obligations.OnlyTheNamedInstructionsWriteEachState : Prop :=
  ∀ (i : Instr) (s t : State), exec i s = .next t →
    (t.i ≠ s.i → i.row ∈ [20, 30, 31, 34]) ∧
    (t.sp ≠ s.sp → i.row ∈ [2, 5]) ∧
    ((∃ j : Fin 16, t.stack[j] ≠ s.stack[j]) → i.row = 5) ∧
    (t.dt ≠ s.dt → i.row = 28) ∧
    (t.st ≠ s.st → i.row = 29) ∧
    ((∃ px py, Framebuffer.pixel t.fb px py ≠ Framebuffer.pixel s.fb px py) → i.row ∈ [1, 23]) ∧
    (t.draw ≠ s.draw → i.row ∈ [1, 23] ∧ t.draw = true) ∧
    t.key = s.key ∧
    ((∃ a, t.mem.read a ≠ s.mem.read a) → i.row ∈ [32, 33])

/-- `VF` changes only by the five instructions that write it as a flag or by an instruction whose destination it is
(10_state.md R23; that the logic operations leave it is the spec's own inference). -/
def Obligations.VfChangesOnlyAsFlagOrDestination : Prop :=
  ∀ (i : Instr) (s t : State), exec i s = .next t → t.reg 15 ≠ s.reg 15 →
    i.row ∈ [15, 16, 17, 18, 23] ∨ destReg i = some 15

/-- A program that has reached a jump to itself stays in that state for ever (the spec's own inference, 70_reset_and_
hazards.md R312). -/
def Obligations.FinalStateIsLeftUnchangedByEveryStep : Prop :=
  ∀ s : State, s.Final → step s = .next s
end

