-- ==== Sys2Proof/Laws/Decode.lean ====
section
/-! SUPPORT. The bit fields of a word and the words packed from fields, as numbers: what every proof about
encodings needs. -/

namespace Sys2Proof

/-- A concatenation as a number. -/
theorem toNat_append_eq {m n : Nat} (x : BitVec m) (y : BitVec n) :
    (x ++ y).toNat = x.toNat * 2 ^ n + y.toNat := by
  rw [BitVec.toNat_append, ← Nat.shiftLeft_add_eq_or_of_lt y.isLt, Nat.shiftLeft_eq]

/-! ### Fields -/

theorem toNat_family (w : Word) : (family w).toNat = w.toNat / 4096 := by
  have := w.isLt
  simp only [family, BitVec.extractLsb'_toNat, Nat.shiftRight_eq_div_pow]
  omega

theorem toNat_nibbleX (w : Word) : (nibbleX w).toNat = w.toNat / 256 % 16 := by
  simp only [nibbleX, BitVec.extractLsb'_toNat, Nat.shiftRight_eq_div_pow]

theorem toNat_nibbleY (w : Word) : (nibbleY w).toNat = w.toNat / 16 % 16 := by
  simp only [nibbleY, BitVec.extractLsb'_toNat, Nat.shiftRight_eq_div_pow]

theorem toNat_fieldN (w : Word) : (fieldN w).toNat = w.toNat % 16 := by
  simp [fieldN, BitVec.extractLsb'_toNat]

theorem toNat_fieldNn (w : Word) : (fieldNn w).toNat = w.toNat % 256 := by
  simp [fieldNn, BitVec.extractLsb'_toNat]

theorem toNat_fieldNnn (w : Word) : (fieldNnn w).toNat = w.toNat % 4096 := by
  simp [fieldNnn, BitVec.extractLsb'_toNat]

theorem val_fieldX (w : Word) : (fieldX w).val = w.toNat / 256 % 16 := toNat_nibbleX w

theorem val_fieldY (w : Word) : (fieldY w).val = w.toNat / 16 % 16 := toNat_nibbleY w

theorem toNat_lowByte (nnn : Addr) : (lowByte nnn).toNat = nnn.toNat % 256 := by
  simp [lowByte, BitVec.toNat_setWidth]

/-! ### Bytes and words -/

theorem toNat_highByteOf (w : Word) : (highByteOf w).toNat = w.toNat / 256 := by
  have := w.isLt
  simp only [highByteOf, BitVec.extractLsb'_toNat, Nat.shiftRight_eq_div_pow]
  omega

theorem toNat_lowByteOf (w : Word) : (lowByteOf w).toNat = w.toNat % 256 := by
  simp [lowByteOf, BitVec.extractLsb'_toNat]

theorem toNat_wordOfBytes (hi lo : Byte) : (wordOfBytes hi lo).toNat = hi.toNat * 256 + lo.toNat :=
  toNat_append_eq hi lo

@[simp] theorem wordOfBytes_bytesOf (w : Word) : wordOfBytes (highByteOf w) (lowByteOf w) = w := by
  apply BitVec.eq_of_toNat_eq
  rw [toNat_wordOfBytes, toNat_highByteOf, toNat_lowByteOf]
  omega

@[simp] theorem highByteOf_wordOfBytes (hi lo : Byte) : highByteOf (wordOfBytes hi lo) = hi := by
  have := lo.isLt
  apply BitVec.eq_of_toNat_eq
  rw [toNat_highByteOf, toNat_wordOfBytes]
  omega

@[simp] theorem lowByteOf_wordOfBytes (hi lo : Byte) : lowByteOf (wordOfBytes hi lo) = lo := by
  have := lo.isLt
  apply BitVec.eq_of_toNat_eq
  rw [toNat_lowByteOf, toNat_wordOfBytes]
  omega

/-! ### Packed words -/

theorem toNat_nibbleOf (x : RegName) : (nibbleOf x).toNat = x.val := by simp [nibbleOf]

theorem toNat_packNnn (f : Nibble) (nnn : Addr) : (packNnn f nnn).toNat = f.toNat * 4096 + nnn.toNat :=
  toNat_append_eq f nnn

theorem toNat_twoNibbles (a b : Nibble) : (a ++ b : BitVec 8).toNat = a.toNat * 16 + b.toNat :=
  toNat_append_eq a b

theorem toNat_twoBytes (a b : Byte) : (a ++ b : BitVec 16).toNat = a.toNat * 256 + b.toNat :=
  toNat_append_eq a b

theorem toNat_packXNn (f : Nibble) (x : RegName) (nn : Byte) :
    (packXNn f x nn).toNat = f.toNat * 4096 + x.val * 256 + nn.toNat := by
  unfold packXNn
  rw [toNat_twoBytes, toNat_twoNibbles, toNat_nibbleOf]
  omega

theorem toNat_packXYN (f : Nibble) (x y : RegName) (n : Nibble) :
    (packXYN f x y n).toNat = f.toNat * 4096 + x.val * 256 + y.val * 16 + n.toNat := by
  unfold packXYN
  rw [toNat_twoBytes, toNat_twoNibbles, toNat_twoNibbles, toNat_nibbleOf, toNat_nibbleOf]
  omega

/-! ### Fields of packed words -/

section Fields
variable (f n : Nibble) (x y : RegName) (nn : Byte) (nnn : Addr)

@[simp] theorem family_packNnn : family (packNnn f nnn) = f := by
  have := nnn.isLt
  apply BitVec.eq_of_toNat_eq; rw [toNat_family, toNat_packNnn]; omega

@[simp] theorem fieldNnn_packNnn : fieldNnn (packNnn f nnn) = nnn := by
  have := nnn.isLt
  apply BitVec.eq_of_toNat_eq; rw [toNat_fieldNnn, toNat_packNnn]; omega

@[simp] theorem fieldNn_packNnn : fieldNn (packNnn f nnn) = lowByte nnn := by
  apply BitVec.eq_of_toNat_eq; rw [toNat_fieldNn, toNat_packNnn, toNat_lowByte]; omega

@[simp] theorem family_packXNn : family (packXNn f x nn) = f := by
  have := nn.isLt
  apply BitVec.eq_of_toNat_eq; rw [toNat_family, toNat_packXNn]; omega

@[simp] theorem fieldX_packXNn : fieldX (packXNn f x nn) = x := by
  have := nn.isLt
  apply Fin.ext; rw [val_fieldX, toNat_packXNn]; omega

@[simp] theorem fieldNn_packXNn : fieldNn (packXNn f x nn) = nn := by
  have := nn.isLt
  apply BitVec.eq_of_toNat_eq; rw [toNat_fieldNn, toNat_packXNn]; omega

@[simp] theorem family_packXYN : family (packXYN f x y n) = f := by
  have := n.isLt
  apply BitVec.eq_of_toNat_eq; rw [toNat_family, toNat_packXYN]; omega

@[simp] theorem fieldX_packXYN : fieldX (packXYN f x y n) = x := by
  have := n.isLt
  apply Fin.ext; rw [val_fieldX, toNat_packXYN]; omega

@[simp] theorem fieldY_packXYN : fieldY (packXYN f x y n) = y := by
  have := n.isLt
  apply Fin.ext; rw [val_fieldY, toNat_packXYN]; omega

@[simp] theorem fieldN_packXYN : fieldN (packXYN f x y n) = n := by
  have := n.isLt
  apply BitVec.eq_of_toNat_eq; rw [toNat_fieldN, toNat_packXYN]; omega

end Fields

end Sys2Proof
end

