-- ==== Sys2Proof/Laws/Memory.lean ====
section
/-! SUPPORT. Memory: read after write, the canonical form is kept, equal reads make equal data, and what each
checked access can answer. -/

namespace Sys2Proof.Machine

/-! ### Reading after writing -/

theorem Memory.byteAt_erase (m : Memory) (a c : Nat) :
    Memory.byteAt (Memory.erase m a) c = if c = a then unlistedByte c else Memory.byteAt m c := by
  induction m with
  | nil => simp [Memory.erase, Memory.byteAt]
  | cons p m ih =>
    obtain ⟨k, d⟩ := p
    by_cases hk : k = a
    · have he : Memory.erase ((k, d) :: m) a = Memory.erase m a := by simp [Memory.erase, hk]
      rw [he, ih]
      by_cases hc : c = a
      · simp [hc]
      · simp only [hc, if_false, Memory.byteAt]
        rw [if_neg (by omega)]
    · have he : Memory.erase ((k, d) :: m) a = (k, d) :: Memory.erase m a := by simp [Memory.erase, hk]
      rw [he]
      simp only [Memory.byteAt, ih]
      by_cases hc : c = a
      · rw [if_neg (by omega)]; simp [hc]
      · simp [hc]

theorem Memory.byteAt_insert (m : Memory) (a c : Nat) (b : Byte) (h : Memory.byteAt m a = unlistedByte a)
    (hno : ∀ p ∈ m, p.1 ≠ a) :
    Memory.byteAt (Memory.insert m a b) c = if c = a then b else Memory.byteAt m c := by
  induction m with
  | nil => simp [Memory.insert, Memory.byteAt, eq_comm]
  | cons p m ih =>
    obtain ⟨k, d⟩ := p
    have hk : k ≠ a := hno (k, d) (by simp)
    have hm : Memory.byteAt m a = unlistedByte a := by simpa [Memory.byteAt, hk] using h
    have ih' := ih hm fun q hq => hno q (by simp [hq])
    unfold Memory.insert
    split
    · simp [Memory.byteAt, eq_comm]
    · simp only [Memory.byteAt, ih']
      by_cases hc : c = a
      · simp [hc, hk]
      · simp [hc]

/-- Reading after writing one byte: the byte written at that address, every other address as before. -/
theorem Memory.byteAt_put (m : Memory) (a c : Nat) (b : Byte) :
    Memory.byteAt (Memory.put m a b) c = if c = a then b else Memory.byteAt m c := by
  unfold Memory.put
  split
  · rename_i hb
    rw [Memory.byteAt_erase]
    by_cases hc : c = a
    · simp [hc, hb]
    · simp [hc]
  · rw [Memory.byteAt_insert _ _ _ _ (by simp [Memory.byteAt_erase]) (by simp [Memory.erase]),
      Memory.byteAt_erase]
    by_cases hc : c = a <;> simp [hc]

/-- Reading after writing a run of bytes. -/
theorem Memory.byteAt_putAll (bs : List Byte) : ∀ (m : Memory) (a c : Nat),
    Memory.byteAt (Memory.putAll m a bs) c =
      if a ≤ c ∧ c < a + bs.length then bs.getD (c - a) (Memory.byteAt m c) else Memory.byteAt m c := by
  induction bs with
  | nil => intro m a c; simp [Memory.putAll]
  | cons b bs ih =>
    intro m a c
    simp only [Memory.putAll, ih, Memory.byteAt_put, List.length_cons]
    by_cases hc : c = a
    · subst hc
      rw [if_neg (show ¬(c + 1 ≤ c ∧ c < c + 1 + bs.length) by omega),
        if_pos (show c ≤ c ∧ c < c + (bs.length + 1) by omega)]
      simp
    · by_cases hin : a + 1 ≤ c ∧ c < a + 1 + bs.length
      · have hs : c - a = (c - (a + 1)) + 1 := by omega
        rw [if_pos hin, if_neg hc, if_pos (show a ≤ c ∧ c < a + (bs.length + 1) by omega), hs,
          List.getD_cons_succ]
      · rw [if_neg hin, if_neg hc, if_neg (show ¬(a ≤ c ∧ c < a + (bs.length + 1)) by omega)]

@[simp] theorem Memory.length_bytesAt (m : Memory) (a n : Nat) : (Memory.bytesAt m a n).length = n := by
  induction n generalizing a with
  | zero => rfl
  | succ n ih => simp [Memory.bytesAt, ih]

theorem Memory.getElem?_bytesAt (m : Memory) (a n k : Nat) :
    (Memory.bytesAt m a n)[k]? = if k < n then some (Memory.byteAt m (a + k)) else none := by
  induction n generalizing a k with
  | zero => simp [Memory.bytesAt]
  | succ n ih =>
    cases k with
    | zero => simp [Memory.bytesAt]
    | succ k => simp [Memory.bytesAt, ih, Nat.add_assoc, Nat.add_comm 1 k]

theorem Memory.getD_bytesAt (m : Memory) (a : Nat) {n k : Nat} (h : k < n) (d : Byte) :
    (Memory.bytesAt m a n).getD k d = Memory.byteAt m (a + k) := by
  rw [List.getD_eq_getElem?_getD, Memory.getElem?_bytesAt, if_pos h]
  rfl

theorem Memory.getD_bytesAt_of_le (m : Memory) (a : Nat) {n k : Nat} (h : n ≤ k) (d : Byte) :
    (Memory.bytesAt m a n).getD k d = d := by
  rw [List.getD_eq_getElem?_getD, Memory.getElem?_bytesAt, if_neg (by omega)]
  rfl

/-! ### The canonical form -/

theorem Memory.wfFrom_mono {m : Memory} {lo hi : Nat} (h : Memory.wfFrom hi m = true) (hle : lo ≤ hi) :
    Memory.wfFrom lo m = true := by
  cases m with
  | nil => rfl
  | cons p m =>
    simp only [Memory.wfFrom, Bool.and_eq_true, decide_eq_true_eq] at h ⊢
    obtain ⟨⟨⟨h1, h2⟩, h3⟩, h4⟩ := h
    exact ⟨⟨⟨by omega, h2⟩, h3⟩, h4⟩

theorem Memory.wfFrom_erase {m : Memory} {lo : Nat} (a : Nat) (h : Memory.wfFrom lo m = true) :
    Memory.wfFrom lo (Memory.erase m a) = true := by
  induction m generalizing lo with
  | nil => rfl
  | cons p m ih =>
    obtain ⟨k, d⟩ := p
    simp only [Memory.wfFrom, Bool.and_eq_true, decide_eq_true_eq] at h
    obtain ⟨⟨⟨h1, h2⟩, h3⟩, h4⟩ := h
    by_cases hk : k = a
    · have he : Memory.erase ((k, d) :: m) a = Memory.erase m a := by simp [Memory.erase, hk]
      rw [he]
      exact Memory.wfFrom_mono (ih h4) (by omega)
    · have he : Memory.erase ((k, d) :: m) a = (k, d) :: Memory.erase m a := by simp [Memory.erase, hk]
      rw [he]
      simp only [Memory.wfFrom, Bool.and_eq_true, decide_eq_true_eq]
      exact ⟨⟨⟨h1, h2⟩, h3⟩, ih h4⟩

theorem Memory.wfFrom_insert {m : Memory} {lo a : Nat} {b : Byte} (h : Memory.wfFrom lo m = true) (hlo : lo ≤ a)
    (ha : a < Config.memSize) (hb : b ≠ unlistedByte a) (hno : ∀ p ∈ m, p.1 ≠ a) :
    Memory.wfFrom lo (Memory.insert m a b) = true := by
  induction m generalizing lo with
  | nil => simp_all [Memory.insert, Memory.wfFrom]
  | cons p m ih =>
    obtain ⟨k, d⟩ := p
    have hk : k ≠ a := hno (k, d) (by simp)
    simp only [Memory.wfFrom, Bool.and_eq_true, decide_eq_true_eq] at h
    obtain ⟨⟨⟨h1, h2⟩, h3⟩, h4⟩ := h
    unfold Memory.insert
    split
    · simp only [Memory.wfFrom, Bool.and_eq_true, decide_eq_true_eq, bne_iff_ne, ne_eq]
      exact ⟨⟨⟨hlo, ha⟩, hb⟩, ⟨⟨by omega, h2⟩, by simpa using h3⟩, h4⟩
    · simp only [Memory.wfFrom, Bool.and_eq_true, decide_eq_true_eq]
      exact ⟨⟨⟨h1, h2⟩, h3⟩, ih h4 (by omega) fun q hq => hno q (by simp [hq])⟩

/-- Writing a byte keeps the canonical form. -/
theorem Memory.wf_put {m : Memory} {a : Nat} (b : Byte) (h : Memory.wf m = true) (ha : a < Config.memSize) :
    Memory.wf (Memory.put m a b) = true := by
  unfold Memory.put
  split
  · exact Memory.wfFrom_erase a h
  · rename_i hb
    exact Memory.wfFrom_insert (Memory.wfFrom_erase a h) (by omega) ha hb (by simp [Memory.erase])

/-- Writing a run of bytes inside memory keeps the canonical form. -/
theorem Memory.wf_putAll (bs : List Byte) : ∀ {m : Memory} {a : Nat}, Memory.wf m = true →
    a + bs.length ≤ Config.memSize → Memory.wf (Memory.putAll m a bs) = true := by
  induction bs with
  | nil => intro m a h _; exact h
  | cons b bs ih =>
    intro m a h ha
    simp only [List.length_cons] at ha
    exact ih (Memory.wf_put b h (by omega)) (by omega)

@[simp] theorem Memory.wf_nil : Memory.wf [] = true := rfl

/-! ### Checked accesses -/

/-- What the range check answers. -/
theorem firstOutside_eq_none_iff (a n : Nat) : firstOutside a n = none ↔ n = 0 ∨ a + n ≤ 4096 := by
  simp only [firstOutside]
  split <;> simp_all

theorem firstOutside_eq_some_iff (a n b : Nat) :
    firstOutside a n = some b ↔ n ≠ 0 ∧ 4096 < a + n ∧ b = max a 4096 := by
  unfold firstOutside
  split <;> simp_all
  · omega
  · omega

theorem Memory.read_of_lt (m : Memory) {a : Nat} (h : a < 4096) : m.read a = .ok (m.byteAt a) := by
  simp [Memory.read, h]

theorem Memory.read_of_le (m : Memory) {a : Nat} (h : 4096 ≤ a) :
    m.read a = .error (.outOfBoundsAccess (.mem a)) := by
  simp [Memory.read]; omega

/-- Checked reads after writing a run of bytes. -/
theorem Memory.read_putAll (m : Memory) (a : Nat) (bs : List Byte) (c : Nat) :
    (Memory.putAll m a bs).read c =
      if a ≤ c ∧ c < a + bs.length ∧ c < 4096 then .ok (bs.getD (c - a) 0#8) else m.read c := by
  by_cases h : c < 4096
  · rw [Memory.read_of_lt _ h, Memory.read_of_lt _ h, Memory.byteAt_putAll]
    by_cases h2 : a ≤ c ∧ c < a + bs.length
    · rw [if_pos h2, if_pos (show a ≤ c ∧ c < a + bs.length ∧ c < 4096 by omega),
        List.getD_eq_getElem?_getD, List.getD_eq_getElem?_getD, List.getElem?_eq_getElem (by omega)]
      rfl
    · rw [if_neg h2, if_neg (show ¬(a ≤ c ∧ c < a + bs.length ∧ c < 4096) by omega)]
  · rw [Memory.read_of_le _ (by omega), Memory.read_of_le _ (by omega),
      if_neg (show ¬(a ≤ c ∧ c < a + bs.length ∧ c < 4096) by omega)]

/-- Everything a read of several bytes can answer (R63). -/
theorem Memory.readAll_cases (m : Memory) (a n : Nat) :
    ((n = 0 ∨ a + n ≤ 4096) ∧ m.readAll a n = .ok (m.bytesAt a n)) ∨
    (n ≠ 0 ∧ 4096 < a + n ∧ m.readAll a n = .error (.outOfBoundsAccess (.mem (max a 4096)))) := by
  unfold Memory.readAll
  cases hf : firstOutside a n with
  | none => exact .inl ⟨(firstOutside_eq_none_iff a n).1 hf, rfl⟩
  | some b =>
    obtain ⟨h1, h2, rfl⟩ := (firstOutside_eq_some_iff a n b).1 hf
    exact .inr ⟨h1, h2, rfl⟩

/-- Everything a write of several bytes can answer (R63, R252). -/
theorem Memory.writeAll_cases (m : Memory) (a : Nat) (bs : List Byte) :
    ((bs.length = 0 ∨ a + bs.length ≤ 4096) ∧ m.writeAll a bs = .ok (m.putAll a bs)) ∨
    (bs.length ≠ 0 ∧ 4096 < a + bs.length ∧
      m.writeAll a bs = .error (.outOfBoundsAccess (.mem (max a 4096)))) := by
  unfold Memory.writeAll
  cases hf : firstOutside a bs.length with
  | none => exact .inl ⟨(firstOutside_eq_none_iff a _).1 hf, rfl⟩
  | some b =>
    obtain ⟨h1, h2, rfl⟩ := (firstOutside_eq_some_iff a _ b).1 hf
    exact .inr ⟨h1, h2, rfl⟩

end Sys2Proof.Machine
end

