-- ==== Sys2Proof/Laws/State.lean ====
section
/-! SUPPORT. What each named update of the state leaves in each field, one lemma per field per update, so that no
proof unfolds a record update; then the same for reading a register. -/

namespace Sys2Proof.Machine

/-! ### `State.setReg` -/

@[simp] theorem State.v_setReg (s : State) (x : RegName) (b : Byte) : (s.setReg x b).v = s.v.set x b := rfl
@[simp] theorem State.i_setReg (s : State) (x : RegName) (b : Byte) : (s.setReg x b).i = s.i := rfl
@[simp] theorem State.pc_setReg (s : State) (x : RegName) (b : Byte) : (s.setReg x b).pc = s.pc := rfl
@[simp] theorem State.sp_setReg (s : State) (x : RegName) (b : Byte) : (s.setReg x b).sp = s.sp := rfl
@[simp] theorem State.stack_setReg (s : State) (x : RegName) (b : Byte) : (s.setReg x b).stack = s.stack := rfl
@[simp] theorem State.dt_setReg (s : State) (x : RegName) (b : Byte) : (s.setReg x b).dt = s.dt := rfl
@[simp] theorem State.st_setReg (s : State) (x : RegName) (b : Byte) : (s.setReg x b).st = s.st := rfl
@[simp] theorem State.fb_setReg (s : State) (x : RegName) (b : Byte) : (s.setReg x b).fb = s.fb := rfl
@[simp] theorem State.draw_setReg (s : State) (x : RegName) (b : Byte) : (s.setReg x b).draw = s.draw := rfl
@[simp] theorem State.key_setReg (s : State) (x : RegName) (b : Byte) : (s.setReg x b).key = s.key := rfl
@[simp] theorem State.mem_setReg (s : State) (x : RegName) (b : Byte) : (s.setReg x b).mem = s.mem := rfl
@[simp] theorem State.rnd_setReg (s : State) (x : RegName) (b : Byte) : (s.setReg x b).rnd = s.rnd := rfl
@[simp] theorem State.rndCount_setReg (s : State) (x : RegName) (b : Byte) : (s.setReg x b).rndCount = s.rndCount := rfl

/-! ### `State.setI` -/

@[simp] theorem State.v_setI (s : State) (w : Word) : (s.setI w).v = s.v := rfl
@[simp] theorem State.i_setI (s : State) (w : Word) : (s.setI w).i = w := rfl
@[simp] theorem State.pc_setI (s : State) (w : Word) : (s.setI w).pc = s.pc := rfl
@[simp] theorem State.sp_setI (s : State) (w : Word) : (s.setI w).sp = s.sp := rfl
@[simp] theorem State.stack_setI (s : State) (w : Word) : (s.setI w).stack = s.stack := rfl
@[simp] theorem State.dt_setI (s : State) (w : Word) : (s.setI w).dt = s.dt := rfl
@[simp] theorem State.st_setI (s : State) (w : Word) : (s.setI w).st = s.st := rfl
@[simp] theorem State.fb_setI (s : State) (w : Word) : (s.setI w).fb = s.fb := rfl
@[simp] theorem State.draw_setI (s : State) (w : Word) : (s.setI w).draw = s.draw := rfl
@[simp] theorem State.key_setI (s : State) (w : Word) : (s.setI w).key = s.key := rfl
@[simp] theorem State.mem_setI (s : State) (w : Word) : (s.setI w).mem = s.mem := rfl
@[simp] theorem State.rnd_setI (s : State) (w : Word) : (s.setI w).rnd = s.rnd := rfl
@[simp] theorem State.rndCount_setI (s : State) (w : Word) : (s.setI w).rndCount = s.rndCount := rfl

/-! ### `State.setDt` -/

@[simp] theorem State.v_setDt (s : State) (b : Byte) : (s.setDt b).v = s.v := rfl
@[simp] theorem State.i_setDt (s : State) (b : Byte) : (s.setDt b).i = s.i := rfl
@[simp] theorem State.pc_setDt (s : State) (b : Byte) : (s.setDt b).pc = s.pc := rfl
@[simp] theorem State.sp_setDt (s : State) (b : Byte) : (s.setDt b).sp = s.sp := rfl
@[simp] theorem State.stack_setDt (s : State) (b : Byte) : (s.setDt b).stack = s.stack := rfl
@[simp] theorem State.dt_setDt (s : State) (b : Byte) : (s.setDt b).dt = b := rfl
@[simp] theorem State.st_setDt (s : State) (b : Byte) : (s.setDt b).st = s.st := rfl
@[simp] theorem State.fb_setDt (s : State) (b : Byte) : (s.setDt b).fb = s.fb := rfl
@[simp] theorem State.draw_setDt (s : State) (b : Byte) : (s.setDt b).draw = s.draw := rfl
@[simp] theorem State.key_setDt (s : State) (b : Byte) : (s.setDt b).key = s.key := rfl
@[simp] theorem State.mem_setDt (s : State) (b : Byte) : (s.setDt b).mem = s.mem := rfl
@[simp] theorem State.rnd_setDt (s : State) (b : Byte) : (s.setDt b).rnd = s.rnd := rfl
@[simp] theorem State.rndCount_setDt (s : State) (b : Byte) : (s.setDt b).rndCount = s.rndCount := rfl

/-! ### `State.setSt` -/

@[simp] theorem State.v_setSt (s : State) (b : Byte) : (s.setSt b).v = s.v := rfl
@[simp] theorem State.i_setSt (s : State) (b : Byte) : (s.setSt b).i = s.i := rfl
@[simp] theorem State.pc_setSt (s : State) (b : Byte) : (s.setSt b).pc = s.pc := rfl
@[simp] theorem State.sp_setSt (s : State) (b : Byte) : (s.setSt b).sp = s.sp := rfl
@[simp] theorem State.stack_setSt (s : State) (b : Byte) : (s.setSt b).stack = s.stack := rfl
@[simp] theorem State.dt_setSt (s : State) (b : Byte) : (s.setSt b).dt = s.dt := rfl
@[simp] theorem State.st_setSt (s : State) (b : Byte) : (s.setSt b).st = b := rfl
@[simp] theorem State.fb_setSt (s : State) (b : Byte) : (s.setSt b).fb = s.fb := rfl
@[simp] theorem State.draw_setSt (s : State) (b : Byte) : (s.setSt b).draw = s.draw := rfl
@[simp] theorem State.key_setSt (s : State) (b : Byte) : (s.setSt b).key = s.key := rfl
@[simp] theorem State.mem_setSt (s : State) (b : Byte) : (s.setSt b).mem = s.mem := rfl
@[simp] theorem State.rnd_setSt (s : State) (b : Byte) : (s.setSt b).rnd = s.rnd := rfl
@[simp] theorem State.rndCount_setSt (s : State) (b : Byte) : (s.setSt b).rndCount = s.rndCount := rfl

/-! ### `State.setMem` -/

@[simp] theorem State.v_setMem (s : State) (m : Memory) : (s.setMem m).v = s.v := rfl
@[simp] theorem State.i_setMem (s : State) (m : Memory) : (s.setMem m).i = s.i := rfl
@[simp] theorem State.pc_setMem (s : State) (m : Memory) : (s.setMem m).pc = s.pc := rfl
@[simp] theorem State.sp_setMem (s : State) (m : Memory) : (s.setMem m).sp = s.sp := rfl
@[simp] theorem State.stack_setMem (s : State) (m : Memory) : (s.setMem m).stack = s.stack := rfl
@[simp] theorem State.dt_setMem (s : State) (m : Memory) : (s.setMem m).dt = s.dt := rfl
@[simp] theorem State.st_setMem (s : State) (m : Memory) : (s.setMem m).st = s.st := rfl
@[simp] theorem State.fb_setMem (s : State) (m : Memory) : (s.setMem m).fb = s.fb := rfl
@[simp] theorem State.draw_setMem (s : State) (m : Memory) : (s.setMem m).draw = s.draw := rfl
@[simp] theorem State.key_setMem (s : State) (m : Memory) : (s.setMem m).key = s.key := rfl
@[simp] theorem State.mem_setMem (s : State) (m : Memory) : (s.setMem m).mem = m := rfl
@[simp] theorem State.rnd_setMem (s : State) (m : Memory) : (s.setMem m).rnd = s.rnd := rfl
@[simp] theorem State.rndCount_setMem (s : State) (m : Memory) : (s.setMem m).rndCount = s.rndCount := rfl

/-! ### `State.setRegs` -/

@[simp] theorem State.i_setRegs (s : State) (bs : List Byte) : (s.setRegs bs).i = s.i := rfl
@[simp] theorem State.pc_setRegs (s : State) (bs : List Byte) : (s.setRegs bs).pc = s.pc := rfl
@[simp] theorem State.sp_setRegs (s : State) (bs : List Byte) : (s.setRegs bs).sp = s.sp := rfl
@[simp] theorem State.stack_setRegs (s : State) (bs : List Byte) : (s.setRegs bs).stack = s.stack := rfl
@[simp] theorem State.dt_setRegs (s : State) (bs : List Byte) : (s.setRegs bs).dt = s.dt := rfl
@[simp] theorem State.st_setRegs (s : State) (bs : List Byte) : (s.setRegs bs).st = s.st := rfl
@[simp] theorem State.fb_setRegs (s : State) (bs : List Byte) : (s.setRegs bs).fb = s.fb := rfl
@[simp] theorem State.draw_setRegs (s : State) (bs : List Byte) : (s.setRegs bs).draw = s.draw := rfl
@[simp] theorem State.key_setRegs (s : State) (bs : List Byte) : (s.setRegs bs).key = s.key := rfl
@[simp] theorem State.mem_setRegs (s : State) (bs : List Byte) : (s.setRegs bs).mem = s.mem := rfl
@[simp] theorem State.rnd_setRegs (s : State) (bs : List Byte) : (s.setRegs bs).rnd = s.rnd := rfl
@[simp] theorem State.rndCount_setRegs (s : State) (bs : List Byte) : (s.setRegs bs).rndCount = s.rndCount := rfl

/-! ### `State.setPc` -/

@[simp] theorem State.v_setPc (s : State) (w : Word) : (s.setPc w).v = s.v := rfl
@[simp] theorem State.i_setPc (s : State) (w : Word) : (s.setPc w).i = s.i := rfl
@[simp] theorem State.pc_setPc (s : State) (w : Word) : (s.setPc w).pc = w := rfl
@[simp] theorem State.sp_setPc (s : State) (w : Word) : (s.setPc w).sp = s.sp := rfl
@[simp] theorem State.stack_setPc (s : State) (w : Word) : (s.setPc w).stack = s.stack := rfl
@[simp] theorem State.dt_setPc (s : State) (w : Word) : (s.setPc w).dt = s.dt := rfl
@[simp] theorem State.st_setPc (s : State) (w : Word) : (s.setPc w).st = s.st := rfl
@[simp] theorem State.fb_setPc (s : State) (w : Word) : (s.setPc w).fb = s.fb := rfl
@[simp] theorem State.draw_setPc (s : State) (w : Word) : (s.setPc w).draw = s.draw := rfl
@[simp] theorem State.key_setPc (s : State) (w : Word) : (s.setPc w).key = s.key := rfl
@[simp] theorem State.mem_setPc (s : State) (w : Word) : (s.setPc w).mem = s.mem := rfl
@[simp] theorem State.rnd_setPc (s : State) (w : Word) : (s.setPc w).rnd = s.rnd := rfl
@[simp] theorem State.rndCount_setPc (s : State) (w : Word) : (s.setPc w).rndCount = s.rndCount := rfl

/-! ### `State.advance` -/

@[simp] theorem State.v_advance (s : State) : s.advance.v = s.v := rfl
@[simp] theorem State.i_advance (s : State) : s.advance.i = s.i := rfl
@[simp] theorem State.pc_advance (s : State) : s.advance.pc = s.pc + 2#16 := rfl
@[simp] theorem State.sp_advance (s : State) : s.advance.sp = s.sp := rfl
@[simp] theorem State.stack_advance (s : State) : s.advance.stack = s.stack := rfl
@[simp] theorem State.dt_advance (s : State) : s.advance.dt = s.dt := rfl
@[simp] theorem State.st_advance (s : State) : s.advance.st = s.st := rfl
@[simp] theorem State.fb_advance (s : State) : s.advance.fb = s.fb := rfl
@[simp] theorem State.draw_advance (s : State) : s.advance.draw = s.draw := rfl
@[simp] theorem State.key_advance (s : State) : s.advance.key = s.key := rfl
@[simp] theorem State.mem_advance (s : State) : s.advance.mem = s.mem := rfl
@[simp] theorem State.rnd_advance (s : State) : s.advance.rnd = s.rnd := rfl
@[simp] theorem State.rndCount_advance (s : State) : s.advance.rndCount = s.rndCount := rfl

/-! ### `State.skipIf` -/

@[simp] theorem State.v_skipIf (s : State) (c : Bool) : (s.skipIf c).v = s.v := rfl
@[simp] theorem State.i_skipIf (s : State) (c : Bool) : (s.skipIf c).i = s.i := rfl
@[simp] theorem State.pc_skipIf (s : State) (c : Bool) : (s.skipIf c).pc = if c then s.pc + 4#16 else s.pc + 2#16 := rfl
@[simp] theorem State.sp_skipIf (s : State) (c : Bool) : (s.skipIf c).sp = s.sp := rfl
@[simp] theorem State.stack_skipIf (s : State) (c : Bool) : (s.skipIf c).stack = s.stack := rfl
@[simp] theorem State.dt_skipIf (s : State) (c : Bool) : (s.skipIf c).dt = s.dt := rfl
@[simp] theorem State.st_skipIf (s : State) (c : Bool) : (s.skipIf c).st = s.st := rfl
@[simp] theorem State.fb_skipIf (s : State) (c : Bool) : (s.skipIf c).fb = s.fb := rfl
@[simp] theorem State.draw_skipIf (s : State) (c : Bool) : (s.skipIf c).draw = s.draw := rfl
@[simp] theorem State.key_skipIf (s : State) (c : Bool) : (s.skipIf c).key = s.key := rfl
@[simp] theorem State.mem_skipIf (s : State) (c : Bool) : (s.skipIf c).mem = s.mem := rfl
@[simp] theorem State.rnd_skipIf (s : State) (c : Bool) : (s.skipIf c).rnd = s.rnd := rfl
@[simp] theorem State.rndCount_skipIf (s : State) (c : Bool) : (s.skipIf c).rndCount = s.rndCount := rfl

/-! ### `State.setFb` -/

@[simp] theorem State.v_setFb (s : State) (f : Framebuffer) : (s.setFb f).v = s.v := rfl
@[simp] theorem State.i_setFb (s : State) (f : Framebuffer) : (s.setFb f).i = s.i := rfl
@[simp] theorem State.pc_setFb (s : State) (f : Framebuffer) : (s.setFb f).pc = s.pc := rfl
@[simp] theorem State.sp_setFb (s : State) (f : Framebuffer) : (s.setFb f).sp = s.sp := rfl
@[simp] theorem State.stack_setFb (s : State) (f : Framebuffer) : (s.setFb f).stack = s.stack := rfl
@[simp] theorem State.dt_setFb (s : State) (f : Framebuffer) : (s.setFb f).dt = s.dt := rfl
@[simp] theorem State.st_setFb (s : State) (f : Framebuffer) : (s.setFb f).st = s.st := rfl
@[simp] theorem State.fb_setFb (s : State) (f : Framebuffer) : (s.setFb f).fb = f := rfl
@[simp] theorem State.draw_setFb (s : State) (f : Framebuffer) : (s.setFb f).draw = true := rfl
@[simp] theorem State.key_setFb (s : State) (f : Framebuffer) : (s.setFb f).key = s.key := rfl
@[simp] theorem State.mem_setFb (s : State) (f : Framebuffer) : (s.setFb f).mem = s.mem := rfl
@[simp] theorem State.rnd_setFb (s : State) (f : Framebuffer) : (s.setFb f).rnd = s.rnd := rfl
@[simp] theorem State.rndCount_setFb (s : State) (f : Framebuffer) : (s.setFb f).rndCount = s.rndCount := rfl

/-! ### `State.useDraw` -/

@[simp] theorem State.v_useDraw (s : State) : s.useDraw.v = s.v := rfl
@[simp] theorem State.i_useDraw (s : State) : s.useDraw.i = s.i := rfl
@[simp] theorem State.pc_useDraw (s : State) : s.useDraw.pc = s.pc := rfl
@[simp] theorem State.sp_useDraw (s : State) : s.useDraw.sp = s.sp := rfl
@[simp] theorem State.stack_useDraw (s : State) : s.useDraw.stack = s.stack := rfl
@[simp] theorem State.dt_useDraw (s : State) : s.useDraw.dt = s.dt := rfl
@[simp] theorem State.st_useDraw (s : State) : s.useDraw.st = s.st := rfl
@[simp] theorem State.fb_useDraw (s : State) : s.useDraw.fb = s.fb := rfl
@[simp] theorem State.draw_useDraw (s : State) : s.useDraw.draw = s.draw := rfl
@[simp] theorem State.key_useDraw (s : State) : s.useDraw.key = s.key := rfl
@[simp] theorem State.mem_useDraw (s : State) : s.useDraw.mem = s.mem := rfl
@[simp] theorem State.rnd_useDraw (s : State) : s.useDraw.rnd = none := rfl
@[simp] theorem State.rndCount_useDraw (s : State) : s.useDraw.rndCount = s.rndCount + 1 := rfl

/-! ### `State.setFlag` -/

@[simp] theorem State.i_setFlag (s : State) (c : Bool) : (s.setFlag c).i = s.i := rfl
@[simp] theorem State.pc_setFlag (s : State) (c : Bool) : (s.setFlag c).pc = s.pc := rfl
@[simp] theorem State.sp_setFlag (s : State) (c : Bool) : (s.setFlag c).sp = s.sp := rfl
@[simp] theorem State.stack_setFlag (s : State) (c : Bool) : (s.setFlag c).stack = s.stack := rfl
@[simp] theorem State.dt_setFlag (s : State) (c : Bool) : (s.setFlag c).dt = s.dt := rfl
@[simp] theorem State.st_setFlag (s : State) (c : Bool) : (s.setFlag c).st = s.st := rfl
@[simp] theorem State.fb_setFlag (s : State) (c : Bool) : (s.setFlag c).fb = s.fb := rfl
@[simp] theorem State.draw_setFlag (s : State) (c : Bool) : (s.setFlag c).draw = s.draw := rfl
@[simp] theorem State.key_setFlag (s : State) (c : Bool) : (s.setFlag c).key = s.key := rfl
@[simp] theorem State.mem_setFlag (s : State) (c : Bool) : (s.setFlag c).mem = s.mem := rfl
@[simp] theorem State.rnd_setFlag (s : State) (c : Bool) : (s.setFlag c).rnd = s.rnd := rfl
@[simp] theorem State.rndCount_setFlag (s : State) (c : Bool) : (s.setFlag c).rndCount = s.rndCount := rfl

/-! ### `State.setResultThenFlag` -/

@[simp] theorem State.i_setResultThenFlag (s : State) (x : RegName) (b : Byte) (c : Bool) : (s.setResultThenFlag x b c).i = s.i := rfl
@[simp] theorem State.pc_setResultThenFlag (s : State) (x : RegName) (b : Byte) (c : Bool) : (s.setResultThenFlag x b c).pc = s.pc := rfl
@[simp] theorem State.sp_setResultThenFlag (s : State) (x : RegName) (b : Byte) (c : Bool) : (s.setResultThenFlag x b c).sp = s.sp := rfl
@[simp] theorem State.stack_setResultThenFlag (s : State) (x : RegName) (b : Byte) (c : Bool) : (s.setResultThenFlag x b c).stack = s.stack := rfl
@[simp] theorem State.dt_setResultThenFlag (s : State) (x : RegName) (b : Byte) (c : Bool) : (s.setResultThenFlag x b c).dt = s.dt := rfl
@[simp] theorem State.st_setResultThenFlag (s : State) (x : RegName) (b : Byte) (c : Bool) : (s.setResultThenFlag x b c).st = s.st := rfl
@[simp] theorem State.fb_setResultThenFlag (s : State) (x : RegName) (b : Byte) (c : Bool) : (s.setResultThenFlag x b c).fb = s.fb := rfl
@[simp] theorem State.draw_setResultThenFlag (s : State) (x : RegName) (b : Byte) (c : Bool) : (s.setResultThenFlag x b c).draw = s.draw := rfl
@[simp] theorem State.key_setResultThenFlag (s : State) (x : RegName) (b : Byte) (c : Bool) : (s.setResultThenFlag x b c).key = s.key := rfl
@[simp] theorem State.mem_setResultThenFlag (s : State) (x : RegName) (b : Byte) (c : Bool) : (s.setResultThenFlag x b c).mem = s.mem := rfl
@[simp] theorem State.rnd_setResultThenFlag (s : State) (x : RegName) (b : Byte) (c : Bool) : (s.setResultThenFlag x b c).rnd = s.rnd := rfl
@[simp] theorem State.rndCount_setResultThenFlag (s : State) (x : RegName) (b : Byte) (c : Bool) : (s.setResultThenFlag x b c).rndCount = s.rndCount := rfl

/-! ### Reading a register after an update -/

theorem State.reg_setReg (s : State) (x r : RegName) (b : Byte) :
    (s.setReg x b).reg r = if r = x then b else s.reg r := by
  simp [State.reg, State.setReg, Vector.getElem_set, Fin.ext_iff, eq_comm]

@[simp] theorem State.reg_setReg_same (s : State) (x : RegName) (b : Byte) : (s.setReg x b).reg x = b := by
  simp [State.reg_setReg]

@[simp] theorem State.reg_setReg_of_ne (s : State) {x r : RegName} (b : Byte) (h : r ≠ x) :
    (s.setReg x b).reg r = s.reg r := by
  simp [State.reg_setReg, h]

@[simp] theorem State.reg_setI (s : State) (w : Word) (r : RegName) : (s.setI w).reg r = s.reg r := rfl
@[simp] theorem State.reg_setDt (s : State) (b : Byte) (r : RegName) : (s.setDt b).reg r = s.reg r := rfl
@[simp] theorem State.reg_setSt (s : State) (b : Byte) (r : RegName) : (s.setSt b).reg r = s.reg r := rfl
@[simp] theorem State.reg_setMem (s : State) (m : Memory) (r : RegName) : (s.setMem m).reg r = s.reg r := rfl
@[simp] theorem State.reg_setPc (s : State) (w : Word) (r : RegName) : (s.setPc w).reg r = s.reg r := rfl
@[simp] theorem State.reg_advance (s : State) (r : RegName) : s.advance.reg r = s.reg r := rfl
@[simp] theorem State.reg_skipIf (s : State) (c : Bool) (r : RegName) : (s.skipIf c).reg r = s.reg r := rfl
@[simp] theorem State.reg_setFb (s : State) (f : Framebuffer) (r : RegName) : (s.setFb f).reg r = s.reg r := rfl
@[simp] theorem State.reg_useDraw (s : State) (r : RegName) : s.useDraw.reg r = s.reg r := rfl

theorem State.reg_setFlag (s : State) (c : Bool) (r : RegName) :
    (s.setFlag c).reg r = if r = regVF then flagByte c else s.reg r := State.reg_setReg s regVF r (flagByte c)

/-- The flag is written after the result (R180). -/
theorem State.reg_setResultThenFlag (s : State) (x r : RegName) (b : Byte) (c : Bool) :
    (s.setResultThenFlag x b c).reg r = if r = regVF then flagByte c else if r = x then b else s.reg r := by
  simp [State.setResultThenFlag, State.reg_setFlag, State.reg_setReg]

/-- A bulk load writes the registers that the list reaches (R228). -/
theorem State.reg_setRegs (s : State) (bs : List Byte) (r : RegName) :
    (s.setRegs bs).reg r = bs.getD r.val (s.reg r) := by
  simp [State.reg, State.setRegs]

/-- A bulk store reads the registers in order (R227). -/
theorem State.getElem?_regsUpTo (s : State) (x : RegName) (k : Nat) :
    (s.regsUpTo x)[k]? = if h : k < x.val + 1 then some (s.reg ⟨k, by omega⟩) else none := by
  have hx := x.isLt
  unfold State.regsUpTo State.reg
  split <;> simp_all

theorem State.getD_regsUpTo (s : State) (x : RegName) {k : Nat} (h : k ≤ x.val) (d : Byte) :
    (s.regsUpTo x).getD k d = s.reg ⟨k, by omega⟩ := by
  rw [List.getD_eq_getElem?_getD, State.getElem?_regsUpTo, dif_pos (by omega)]
  rfl

@[simp] theorem State.length_regsUpTo (s : State) (x : RegName) : (s.regsUpTo x).length = x.val + 1 := by
  have hx := x.isLt
  simp only [State.regsUpTo, List.length_take, Vector.length_toList]
  omega

/-- Two states with the same fields are the same state, the registers read one by one. -/
theorem State.v_eq_of_reg_eq {s t : State} (h : ∀ r, t.reg r = s.reg r) : t.v = s.v := by
  apply Vector.ext
  intro k hk
  exact h ⟨k, hk⟩

end Sys2Proof.Machine
end

