-- ==== Sys2Proof/Laws/Ops.lean ====
section
/-! SUPPORT. One lemma per shared operation that says once everything it can answer. -/

namespace Sys2Proof.Machine

/-! ### Operands -/

@[simp] theorem toNat_zextAddr (nnn : Addr) : (zextAddr nnn).toNat = nnn.toNat := by
  have := nnn.isLt
  simp only [zextAddr, BitVec.toNat_setWidth]
  omega

@[simp] theorem toNat_zextByte (b : Byte) : (zextByte b).toNat = b.toNat := by
  have := b.isLt
  simp only [zextByte, BitVec.toNat_setWidth]
  omega

/-- The address of a glyph is the formula of R225 on the whole byte; it never wraps. -/
theorem toNat_glyphAddress (d : Byte) : (glyphAddress d).toNat = 0x050 + 5 * d.toNat := by
  have := d.isLt
  simp only [glyphAddress, BitVec.toNat_add, BitVec.toNat_mul, toNat_zextByte, BitVec.toNat_ofNat]
  omega

@[simp] theorem length_bcdDigits (b : Byte) : (bcdDigits b).length = 3 := rfl

/-! ### Call stack -/

/-- Everything a push can answer (R134). -/
theorem State.push_cases (s : State) (w : Word) :
    (∃ h : s.sp.val < 16,
      s.push w = some { s with stack := s.stack.set s.sp.val w, sp := ⟨s.sp.val + 1, by omega⟩ }) ∨
    (s.sp.val = 16 ∧ s.push w = none) := by
  have := s.sp.isLt
  unfold State.push
  split
  · rename_i h
    exact .inl ⟨h, rfl⟩
  · exact .inr ⟨by omega, rfl⟩

/-- Everything a pop can answer (R136). -/
theorem State.pop_cases (s : State) :
    (∃ h : 0 < s.sp.val,
      s.pop = some (s.stack[s.sp.val - 1], { s with sp := ⟨s.sp.val - 1, by omega⟩ })) ∨
    (s.sp.val = 0 ∧ s.pop = none) := by
  unfold State.pop
  split
  · rename_i h
    exact .inl ⟨h, rfl⟩
  · exact .inr ⟨by omega, rfl⟩

/-! ### Framebuffer -/

@[simp] theorem Framebuffer.pixel_blank (px py : Nat) : Framebuffer.pixel Framebuffer.blank px py = false := by
  unfold Framebuffer.pixel Framebuffer.blank
  split <;> simp

/-- Flipping a pixel of the grid toggles that pixel and no other (R192, R197). -/
theorem Framebuffer.pixel_flip (fb : Framebuffer) {px py : Nat} (hx : px < 64) (hy : py < 32) (qx qy : Nat) :
    Framebuffer.pixel (Framebuffer.flip fb px py) qx qy =
      (Framebuffer.pixel fb qx qy ^^ decide (qx = px ∧ qy = py)) := by
  unfold Framebuffer.flip Framebuffer.pixel
  simp only [hy, dif_pos]
  split
  · simp only [Vector.getElem_set]
    by_cases h : py = qy
    · subst h
      by_cases h2 : px = qx <;> simp [h2, hx, eq_comm]
      subst h2
      simp [hx]
    · simp [h, Ne.symm h]
  · simp; omega

/-- Two framebuffers with the same pixels are the same data. -/
theorem Framebuffer.ext_pixel {f g : Framebuffer}
    (h : ∀ px py, px < 64 → py < 32 → Framebuffer.pixel f px py = Framebuffer.pixel g px py) : f = g := by
  apply Vector.ext
  intro py hy
  apply BitVec.eq_of_getLsbD_eq
  intro px hx
  simpa [Framebuffer.pixel, hy] using h px py hx hy

/-! ### Keys -/

theorem lowestKey_eq_none_iff (keys : BitVec 16) : lowestKey keys = none ↔ ∀ k, k < 16 → keyDown keys k = false := by
  simp [lowestKey]

/-- The lowest pressed key is pressed, is one of the sixteen, and none below it is pressed (R214). -/
theorem lowestKey_eq_some_iff (keys : BitVec 16) (k : Nat) :
    lowestKey keys = some k ↔ k < 16 ∧ keyDown keys k = true ∧ ∀ j, j < k → keyDown keys j = false := by
  unfold lowestKey
  rw [List.find?_range_eq_some]
  simp
  tauto

/-! ### Fetch -/

/-- Everything a fetch can answer (R62, R65). -/
theorem State.fetch_cases (s : State) :
    (s.pc.toNat ≤ 4094 ∧
      s.fetch = .ok (wordOfBytes (s.mem.byteAt s.pc.toNat) (s.mem.byteAt (s.pc.toNat + 1)))) ∨
    (s.pc.toNat = 4095 ∧ s.fetch = .error (.outOfBoundsAccess (.mem 4096))) ∨
    (4096 ≤ s.pc.toNat ∧ s.fetch = .error (.outOfBoundsAccess (.mem s.pc.toNat))) := by
  unfold State.fetch
  by_cases h1 : s.pc.toNat ≤ 4094
  · left
    rw [Memory.read_of_lt _ (by omega), Memory.read_of_lt _ (by omega)]
    exact ⟨h1, rfl⟩
  · by_cases h2 : s.pc.toNat = 4095
    · right; left
      rw [Memory.read_of_lt _ (by omega), Memory.read_of_le _ (by omega), h2]
      exact ⟨rfl, rfl⟩
    · right; right
      rw [Memory.read_of_le _ (by omega)]
      exact ⟨by omega, rfl⟩

/-- What a step can do: it faults at the fetch, it faults at decode, or it runs the decoded instruction (R97). -/
theorem step_cases (s : State) :
    (∃ f, s.fetch = .error f ∧ step s = .fault f) ∨
    (∃ op e, s.fetch = .ok op ∧ decode op = .error e ∧ step s = .fault (.unknownOpcode op s.pc)) ∨
    (∃ op i, s.fetch = .ok op ∧ decode op = .ok i ∧ step s = exec i s) := by
  unfold step
  cases hf : s.fetch with
  | error f => exact .inl ⟨f, rfl, rfl⟩
  | ok op =>
    cases hd : decode op with
    | error e => exact .inr (.inl ⟨op, e, rfl, hd, by simp [hd, raise]⟩)
    | ok i => exact .inr (.inr ⟨op, i, rfl, hd, by simp [hd]⟩)

/-- A step that answers a next state ran an instruction that answered it, fetched at a `PC` of at most 4094. -/
theorem step_next {s t : State} (h : step s = .next t) :
    s.pc.toNat ≤ 4094 ∧ ∃ op i, s.fetch = .ok op ∧ decode op = .ok i ∧ exec i s = .next t := by
  obtain ⟨f, -, hs⟩ | ⟨op, e, -, -, hs⟩ | ⟨op, i, hf, hd, hs⟩ := step_cases s
  · simp [h] at hs
  · simp [h] at hs
  · refine ⟨?_, op, i, hf, hd, hs ▸ h⟩
    obtain ⟨hp, -⟩ | ⟨-, hf'⟩ | ⟨-, hf'⟩ := s.fetch_cases
    · exact hp
    · simp [hf] at hf'
    · simp [hf] at hf'

/-! ### Placing a word -/

theorem State.fetchHome_le (s : State) : s.fetchHome.toNat ≤ 4094 := by
  unfold State.fetchHome
  split
  · rename_i h
    simp only [Config.memSize] at h
    omega
  · decide

/-- The word a state was given is the word its next fetch reads. -/
theorem State.fetch_placeWord (s : State) (w : Word) : (s.placeWord w).fetch = .ok w := by
  have hle := s.fetchHome_le
  have hpc : (s.placeWord w).pc = s.fetchHome := rfl
  have hmem : (s.placeWord w).mem = s.mem.putAll s.fetchHome.toNat [highByteOf w, lowByteOf w] := rfl
  obtain ⟨-, h⟩ | ⟨h, -⟩ | ⟨h, -⟩ := (s.placeWord w).fetch_cases
  · rw [h, hpc, hmem]
    simp only [Memory.byteAt_putAll, List.length_cons, List.length_nil]
    simp
  · rw [hpc] at h; omega
  · rw [hpc] at h; omega

end Sys2Proof.Machine
end

