-- ==== Sys2Proof/Laws/Events.lean ====
section
/-! SUPPORT. What the events do to each piece of state, and the canonical form of memory under `load` and the
placing of a word. -/

namespace Sys2Proof.Machine

/-! ### Memory after `reset` -/

/-- With the default font nothing is listed. -/
@[simp] theorem resetMemory_defaultFont : resetMemory defaultFont = [] := by decide

/-- What the reset memory holds, for any font: the font's bytes in their place, zero elsewhere (R45). -/
theorem byteAt_resetMemory (font : Config.FontRom) (a : Nat) :
    (resetMemory font).byteAt a = if 0x050 ≤ a ∧ a ≤ 0x09F then font.toList.getD (a - 0x050) 0#8 else 0#8 := by
  have hlen : font.toList.length = 80 := by simp
  unfold resetMemory
  rw [Memory.byteAt_putAll, hlen]
  simp only [Config.fontBase]
  by_cases h : 80 ≤ a ∧ a ≤ 159
  · rw [if_pos (by omega), if_pos h, List.getD_eq_getElem?_getD, List.getD_eq_getElem?_getD,
      List.getElem?_eq_getElem (by omega)]
    rfl
  · rw [if_neg (by omega), if_neg h, Memory.byteAt, unlistedByte]
    split
    · rfl
    · rw [List.getD_eq_getElem?_getD, List.getElem?_eq_none]
      · rfl
      · have : defaultFontBytes.length = 80 := rfl
        simp only [Config.fontBase] at *
        omega

/-- The reset memory is canonical, for any font. -/
theorem resetMemory_wf (font : Config.FontRom) : (resetMemory font).wf = true :=
  Memory.wf_putAll _ Memory.wf_nil (by simp)

/-! ### `State.resetEvent` -/

/-- With the default font the `reset` event leads from `State.reset` to itself (R300). -/
@[simp] theorem State.resetWith_defaultFont : State.resetWith defaultFont = State.reset := by
  simp [State.resetWith, State.resetEvent, State.reset]

@[simp] theorem State.v_resetEvent (font : Config.FontRom) (s : State) :
    (s.resetEvent font).v = State.reset.v := rfl
@[simp] theorem State.i_resetEvent (font : Config.FontRom) (s : State) :
    (s.resetEvent font).i = State.reset.i := rfl
@[simp] theorem State.pc_resetEvent (font : Config.FontRom) (s : State) :
    (s.resetEvent font).pc = State.reset.pc := rfl
@[simp] theorem State.sp_resetEvent (font : Config.FontRom) (s : State) :
    (s.resetEvent font).sp = State.reset.sp := rfl
@[simp] theorem State.stack_resetEvent (font : Config.FontRom) (s : State) :
    (s.resetEvent font).stack = s.stack := rfl
@[simp] theorem State.dt_resetEvent (font : Config.FontRom) (s : State) :
    (s.resetEvent font).dt = State.reset.dt := rfl
@[simp] theorem State.st_resetEvent (font : Config.FontRom) (s : State) :
    (s.resetEvent font).st = State.reset.st := rfl
@[simp] theorem State.fb_resetEvent (font : Config.FontRom) (s : State) :
    (s.resetEvent font).fb = State.reset.fb := rfl
@[simp] theorem State.draw_resetEvent (font : Config.FontRom) (s : State) :
    (s.resetEvent font).draw = State.reset.draw := rfl
@[simp] theorem State.key_resetEvent (font : Config.FontRom) (s : State) :
    (s.resetEvent font).key = s.key := rfl
@[simp] theorem State.mem_resetEvent (font : Config.FontRom) (s : State) :
    (s.resetEvent font).mem = resetMemory font := rfl
@[simp] theorem State.rnd_resetEvent (font : Config.FontRom) (s : State) :
    (s.resetEvent font).rnd = s.rnd := rfl
@[simp] theorem State.rndCount_resetEvent (font : Config.FontRom) (s : State) :
    (s.resetEvent font).rndCount = s.rndCount := rfl

/-! ### `State.withDraw` -/

@[simp] theorem State.v_withDraw (s : State) (b : Byte) : (s.withDraw b).v = s.v := rfl
@[simp] theorem State.i_withDraw (s : State) (b : Byte) : (s.withDraw b).i = s.i := rfl
@[simp] theorem State.pc_withDraw (s : State) (b : Byte) : (s.withDraw b).pc = s.pc := rfl
@[simp] theorem State.sp_withDraw (s : State) (b : Byte) : (s.withDraw b).sp = s.sp := rfl
@[simp] theorem State.stack_withDraw (s : State) (b : Byte) : (s.withDraw b).stack = s.stack := rfl
@[simp] theorem State.dt_withDraw (s : State) (b : Byte) : (s.withDraw b).dt = s.dt := rfl
@[simp] theorem State.st_withDraw (s : State) (b : Byte) : (s.withDraw b).st = s.st := rfl
@[simp] theorem State.fb_withDraw (s : State) (b : Byte) : (s.withDraw b).fb = s.fb := rfl
@[simp] theorem State.draw_withDraw (s : State) (b : Byte) : (s.withDraw b).draw = s.draw := rfl
@[simp] theorem State.key_withDraw (s : State) (b : Byte) : (s.withDraw b).key = s.key := rfl
@[simp] theorem State.mem_withDraw (s : State) (b : Byte) : (s.withDraw b).mem = s.mem := rfl
@[simp] theorem State.rnd_withDraw (s : State) (b : Byte) : (s.withDraw b).rnd = some b := rfl
@[simp] theorem State.rndCount_withDraw (s : State) (b : Byte) : (s.withDraw b).rndCount = s.rndCount := rfl

/-! ### `State.dropDraw` -/

@[simp] theorem State.v_dropDraw (s : State) : s.dropDraw.v = s.v := rfl
@[simp] theorem State.i_dropDraw (s : State) : s.dropDraw.i = s.i := rfl
@[simp] theorem State.pc_dropDraw (s : State) : s.dropDraw.pc = s.pc := rfl
@[simp] theorem State.sp_dropDraw (s : State) : s.dropDraw.sp = s.sp := rfl
@[simp] theorem State.stack_dropDraw (s : State) : s.dropDraw.stack = s.stack := rfl
@[simp] theorem State.dt_dropDraw (s : State) : s.dropDraw.dt = s.dt := rfl
@[simp] theorem State.st_dropDraw (s : State) : s.dropDraw.st = s.st := rfl
@[simp] theorem State.fb_dropDraw (s : State) : s.dropDraw.fb = s.fb := rfl
@[simp] theorem State.draw_dropDraw (s : State) : s.dropDraw.draw = s.draw := rfl
@[simp] theorem State.key_dropDraw (s : State) : s.dropDraw.key = s.key := rfl
@[simp] theorem State.mem_dropDraw (s : State) : s.dropDraw.mem = s.mem := rfl
@[simp] theorem State.rnd_dropDraw (s : State) : s.dropDraw.rnd = none := rfl
@[simp] theorem State.rndCount_dropDraw (s : State) : s.dropDraw.rndCount = s.rndCount := rfl

/-! ### `State.keySet` -/

@[simp] theorem State.v_keySet (s : State) (k : Fin 16) (v : Bool) : (s.keySet k v).v = s.v := rfl
@[simp] theorem State.i_keySet (s : State) (k : Fin 16) (v : Bool) : (s.keySet k v).i = s.i := rfl
@[simp] theorem State.pc_keySet (s : State) (k : Fin 16) (v : Bool) : (s.keySet k v).pc = s.pc := rfl
@[simp] theorem State.sp_keySet (s : State) (k : Fin 16) (v : Bool) : (s.keySet k v).sp = s.sp := rfl
@[simp] theorem State.stack_keySet (s : State) (k : Fin 16) (v : Bool) : (s.keySet k v).stack = s.stack := rfl
@[simp] theorem State.dt_keySet (s : State) (k : Fin 16) (v : Bool) : (s.keySet k v).dt = s.dt := rfl
@[simp] theorem State.st_keySet (s : State) (k : Fin 16) (v : Bool) : (s.keySet k v).st = s.st := rfl
@[simp] theorem State.fb_keySet (s : State) (k : Fin 16) (v : Bool) : (s.keySet k v).fb = s.fb := rfl
@[simp] theorem State.draw_keySet (s : State) (k : Fin 16) (v : Bool) : (s.keySet k v).draw = s.draw := rfl
@[simp] theorem State.mem_keySet (s : State) (k : Fin 16) (v : Bool) : (s.keySet k v).mem = s.mem := rfl
@[simp] theorem State.rnd_keySet (s : State) (k : Fin 16) (v : Bool) : (s.keySet k v).rnd = s.rnd := rfl
@[simp] theorem State.rndCount_keySet (s : State) (k : Fin 16) (v : Bool) : (s.keySet k v).rndCount = s.rndCount := rfl

/-! ### `State.redrawAck` -/

@[simp] theorem State.v_redrawAck (s : State) : s.redrawAck.v = s.v := rfl
@[simp] theorem State.i_redrawAck (s : State) : s.redrawAck.i = s.i := rfl
@[simp] theorem State.pc_redrawAck (s : State) : s.redrawAck.pc = s.pc := rfl
@[simp] theorem State.sp_redrawAck (s : State) : s.redrawAck.sp = s.sp := rfl
@[simp] theorem State.stack_redrawAck (s : State) : s.redrawAck.stack = s.stack := rfl
@[simp] theorem State.dt_redrawAck (s : State) : s.redrawAck.dt = s.dt := rfl
@[simp] theorem State.st_redrawAck (s : State) : s.redrawAck.st = s.st := rfl
@[simp] theorem State.fb_redrawAck (s : State) : s.redrawAck.fb = s.fb := rfl
@[simp] theorem State.draw_redrawAck (s : State) : s.redrawAck.draw = false := rfl
@[simp] theorem State.key_redrawAck (s : State) : s.redrawAck.key = s.key := rfl
@[simp] theorem State.mem_redrawAck (s : State) : s.redrawAck.mem = s.mem := rfl
@[simp] theorem State.rnd_redrawAck (s : State) : s.redrawAck.rnd = s.rnd := rfl
@[simp] theorem State.rndCount_redrawAck (s : State) : s.redrawAck.rndCount = s.rndCount := rfl

/-- One key flag takes the value, the others keep theirs (R276). -/
theorem State.keyDown_keySet (s : State) (k j : Fin 16) (v : Bool) :
    keyDown (s.keySet k v).key j.val = if j = k then v else keyDown s.key j.val := by
  unfold keyDown
  cases v <;> simp [State.keySet, Fin.ext_iff] <;> by_cases h : k.val = j.val <;> simp [h, eq_comm]

/-! ### `tick` -/

theorem toNat_countDown (b : Byte) : (countDown b).toNat = b.toNat - 1 := by
  unfold countDown
  split
  · rename_i h; subst h; rfl
  · rename_i h
    have h0 : b.toNat ≠ 0 := fun h' => h (BitVec.eq_of_toNat_eq (by simpa using h'))
    have := b.isLt
    simp only [BitVec.toNat_sub, BitVec.toNat_ofNat]
    omega

/-! ### `step` as an event -/

@[simp] theorem State.fetch_withDraw (s : State) (b : Byte) : (s.withDraw b).fetch = s.fetch := rfl

/-- A step event reports a fault exactly when the step with its draw does, and then leaves the state (R252). -/
theorem State.stepEvent_eq_fault_iff (s : State) (b : Byte) (f : Fault) :
    s.stepEvent b = (s, .fault f) ↔ step (s.withDraw b) = .fault f := by
  unfold State.stepEvent
  constructor
  · intro h
    split at h
    · split at h <;> simp at h
    · rename_i hh
      simp only [Prod.mk.injEq, StepOutcome.fault.injEq, true_and] at h
      rw [hh, h]
    · simp at h
  · intro h
    simp [h]

/-! ### The canonical form -/

/-- A `load` keeps the canonical form of memory. -/
theorem State.load_wf {s t : State} {bytes : List Byte} (h : s.load bytes = .ok t) (hw : s.mem.wf = true) :
    t.mem.wf = true := by
  unfold State.load at h
  split at h
  · rename_i hl
    simp only [Config.maxProgLen] at hl
    simp only [Except.ok.injEq] at h
    subst h
    exact Memory.wf_putAll _ hw (by simp only [Config.progBase, Config.memSize]; omega)
  · simp at h

/-- Placing a word keeps the canonical form of memory. -/
theorem State.placeWord_wf (s : State) (w : Word) (hw : s.mem.wf = true) : (s.placeWord w).mem.wf = true := by
  have hle := s.fetchHome_le
  exact Memory.wf_putAll _ hw (by simp only [List.length_cons, List.length_nil, Config.memSize]; omega)

/-- After placing a word, the next step is that word's own (log 11). -/
theorem State.step_withFetchWord (s : State) (nbits w : Nat) (i : Instr) (h : decode (tableWord nbits w) = .ok i) :
    step (s.withFetchWord nbits w) = exec i (s.withFetchWord nbits w) := by
  simp [step, State.withFetchWord, State.fetch_placeWord, h]

end Sys2Proof.Machine
end

