-- ==== Sys2Proof/Laws/Sprite.lean ====
section
/-! SUPPORT. The rasterizer: which pixels a sprite covers, that it covers each once, and what flipping them all
does (R191, R197). -/

namespace Sys2Proof.Machine

/-- The pixels of one row: column `c` is under a set bit `7 - c` (R191). -/
theorem mem_rowPixels (x0 y : Nat) (row : Byte) (p : Nat × Nat) :
    p ∈ rowPixels x0 y row ↔ ∃ c, c < 8 ∧ row.getLsbD (7 - c) = true ∧ p = (x0 + c, y) := by
  simp only [rowPixels, List.mem_map, List.mem_filter, List.mem_range]
  constructor
  · rintro ⟨c, ⟨hc, hb⟩, rfl⟩
    exact ⟨c, hc, hb, rfl⟩
  · rintro ⟨c, hc, hb, rfl⟩
    exact ⟨c, ⟨hc, hb⟩, rfl⟩

/-- The pixels of a sprite: those under a set bit `(r, c)` (R191). -/
theorem mem_spritePixels (x0 : Nat) (rows : List Byte) : ∀ (y0 : Nat) (p : Nat × Nat),
    p ∈ spritePixels x0 y0 rows ↔
      ∃ r c b, rows[r]? = some b ∧ c < 8 ∧ b.getLsbD (7 - c) = true ∧ p = (x0 + c, y0 + r) := by
  induction rows with
  | nil => intro y0 p; simp [spritePixels]
  | cons row rows ih =>
    intro y0 p
    simp only [spritePixels, List.mem_append, mem_rowPixels, ih]
    constructor
    · rintro (⟨c, hc, hb, rfl⟩ | ⟨r, c, b, hr, hc, hb, rfl⟩)
      · exact ⟨0, c, row, by simp, hc, hb, by simp⟩
      · exact ⟨r + 1, c, b, by simpa using hr, hc, hb, by simp [Nat.add_assoc, Nat.add_comm 1 r]⟩
    · rintro ⟨r, c, b, hr, hc, hb, rfl⟩
      cases r with
      | zero =>
        simp only [List.getElem?_cons_zero, Option.some.injEq] at hr
        subst hr
        exact .inl ⟨c, hc, hb, by simp⟩
      | succ r =>
        exact .inr ⟨r, c, b, by simpa using hr, hc, hb, by simp [Nat.add_assoc, Nat.add_comm 1 r]⟩

theorem nodup_rowPixels (x0 y : Nat) (row : Byte) : (rowPixels x0 y row).Nodup := by
  unfold rowPixels
  refine List.Nodup.map ?_ (List.Nodup.filter _ List.nodup_range)
  intro a b h
  simpa using h

/-- A sprite covers each pixel at most once (R197). -/
theorem nodup_spritePixels (x0 : Nat) (rows : List Byte) : ∀ y0, (spritePixels x0 y0 rows).Nodup := by
  induction rows with
  | nil => intro y0; simp [spritePixels]
  | cons row rows ih =>
    intro y0
    refine List.Nodup.append (nodup_rowPixels x0 y0 row) (ih (y0 + 1)) ?_
    intro p hp hq
    obtain ⟨c, -, -, rfl⟩ := (mem_rowPixels x0 y0 row p).1 hp
    obtain ⟨r, c', b, -, -, -, h⟩ := (mem_spritePixels x0 rows (y0 + 1) _).1 hq
    simp at h
    omega

theorem offGrid_eq_false_iff (p : Nat × Nat) : offGrid p = false ↔ p.1 < 64 ∧ p.2 < 32 := by
  simp [offGrid]

/-- Flipping pixels of the grid, none of them twice, toggles exactly those (R197). -/
theorem pixel_blit (ps : List (Nat × Nat)) : ∀ (fb : Framebuffer), ps.Nodup → (∀ p ∈ ps, offGrid p = false) →
    ∀ qx qy, Framebuffer.pixel (blit fb ps).1 qx qy = (Framebuffer.pixel fb qx qy ^^ decide ((qx, qy) ∈ ps)) := by
  induction ps with
  | nil => intro fb _ _ qx qy; simp [blit]
  | cons p ps ih =>
    intro fb hn hg qx qy
    obtain ⟨hx, hy⟩ := (offGrid_eq_false_iff p).1 (hg p (by simp))
    rw [List.nodup_cons] at hn
    simp only [blit]
    rw [ih _ hn.2 (fun q hq => hg q (by simp [hq])), Framebuffer.pixel_flip _ hx hy]
    obtain ⟨px, py⟩ := p
    by_cases h : (qx, qy) = (px, py)
    · have h' := h
      simp only [Prod.mk.injEq] at h
      obtain ⟨rfl, rfl⟩ := h
      simp [hn.1]
    · have h2 : ¬(qx = px ∧ qy = py) := by simpa using h
      simp [h2]

/-- The collision flag: one of the pixels was 1 before the instruction (R197). -/
theorem hit_blit (ps : List (Nat × Nat)) : ∀ (fb : Framebuffer), ps.Nodup → (∀ p ∈ ps, offGrid p = false) →
    ((blit fb ps).2 = true ↔ ∃ p ∈ ps, Framebuffer.pixel fb p.1 p.2 = true) := by
  induction ps with
  | nil => intro fb _ _; simp [blit]
  | cons p ps ih =>
    intro fb hn hg
    obtain ⟨hx, hy⟩ := (offGrid_eq_false_iff p).1 (hg p (by simp))
    rw [List.nodup_cons] at hn
    simp only [blit, Bool.or_eq_true, ih _ hn.2 (fun q hq => hg q (by simp [hq])), List.mem_cons,
      exists_eq_or_imp]
    refine or_congr Iff.rfl (exists_congr fun q => and_congr_right fun hq => ?_)
    have hne : ¬(q.1 = p.1 ∧ q.2 = p.2) := by
      rintro ⟨h1, h2⟩
      exact hn.1 (by rwa [← Prod.ext h1 h2])
    rw [Framebuffer.pixel_flip _ hx hy]
    simp [hne]

/-! ### The first pixel off the grid, in row-then-column order (R192) -/

theorem find?_rowPixels (x0 y : Nat) (row : Byte) (p : Nat × Nat) :
    (rowPixels x0 y row).find? offGrid = some p ↔
      ∃ c, c < 8 ∧ row.getLsbD (7 - c) = true ∧ p = (x0 + c, y) ∧ offGrid p = true ∧
        ∀ c', c' < c → row.getLsbD (7 - c') = true → offGrid (x0 + c', y) = false := by
  unfold rowPixels
  rw [List.find?_map, List.find?_filter]
  simp only [Option.map_eq_some_iff, List.find?_range_eq_some]
  constructor
  · rintro ⟨c, ⟨h1, h2, h3⟩, rfl⟩
    simp only [Function.comp_apply, decide_eq_true_eq] at h1
    simp only [List.mem_range] at h2
    refine ⟨c, h2, h1.1, rfl, h1.2, fun c' hc' hb => ?_⟩
    simpa [hb] using h3 c' hc'
  · rintro ⟨c, h1, h2, rfl, h3, h4⟩
    refine ⟨c, ⟨by simp [h2, h3], by simpa using h1, fun c' hc' => ?_⟩, rfl⟩
    by_cases hb : row.getLsbD (7 - c') = true
    · simp [hb, h4 c' hc' hb]
    · simp [hb]

/-- The first off-grid pixel is under a set bit `(r, c)`, and no set bit before it is off the grid. -/
theorem find?_spritePixels (x0 : Nat) (rows : List Byte) : ∀ (y0 : Nat) (p : Nat × Nat),
    (spritePixels x0 y0 rows).find? offGrid = some p ↔
      ∃ r c b, rows[r]? = some b ∧ c < 8 ∧ b.getLsbD (7 - c) = true ∧ p = (x0 + c, y0 + r) ∧ offGrid p = true ∧
        ∀ r' c' b', rows[r']? = some b' → (r' < r ∨ r' = r ∧ c' < c) → c' < 8 → b'.getLsbD (7 - c') = true →
          offGrid (x0 + c', y0 + r') = false := by
  induction rows with
  | nil => intro y0 p; simp [spritePixels]
  | cons row rows ih =>
    intro y0 p
    have shift : ∀ r, y0 + 1 + r = y0 + (r + 1) := fun r => by omega
    simp only [spritePixels, List.find?_append]
    constructor
    · intro h
      cases hr : (rowPixels x0 y0 row).find? offGrid with
      | some q =>
        obtain rfl : q = p := by simpa [hr] using h
        obtain ⟨c, h1, h2, rfl, h3, h4⟩ := (find?_rowPixels x0 y0 row _).1 hr
        refine ⟨0, c, row, rfl, h1, h2, rfl, h3, ?_⟩
        rintro r' c' b' hb' (h | ⟨rfl, h⟩) hc' hs
        · omega
        · obtain rfl : row = b' := by simpa using hb'
          exact h4 c' h hs
      | none =>
        rw [hr, Option.none_or] at h
        obtain ⟨r, c, b, h1, h2, h3, rfl, h5, h6⟩ := (ih _ _).1 h
        rw [shift] at h5
        refine ⟨r + 1, c, b, by simpa using h1, h2, h3, by rw [shift], by rwa [shift], ?_⟩
        intro r' c' b' hb' ho hc' hs
        cases r' with
        | zero =>
          obtain rfl : row = b' := by simpa using hb'
          simpa using List.find?_eq_none.1 hr (x0 + c', y0) ((mem_rowPixels _ _ _ _).2 ⟨c', hc', hs, rfl⟩)
        | succ r' => exact shift r' ▸ h6 r' c' b' (by simpa using hb') (by omega) hc' hs
    · rintro ⟨r, c, b, h1, h2, h3, rfl, h5, h6⟩
      cases r with
      | zero =>
        obtain rfl : row = b := by simpa using h1
        have hr : (rowPixels x0 y0 row).find? offGrid = some (x0 + c, y0) :=
          (find?_rowPixels x0 y0 row _).2
            ⟨c, h2, h3, rfl, h5, fun c' hc' hb => h6 0 c' row rfl (.inr ⟨rfl, hc'⟩) (by omega) hb⟩
        simp [hr]
      | succ r =>
        have hr : (rowPixels x0 y0 row).find? offGrid = none := by
          rw [List.find?_eq_none]
          intro q hq
          obtain ⟨c', hc', hb, rfl⟩ := (mem_rowPixels _ _ _ _).1 hq
          simpa using h6 0 c' row rfl (by omega) hc' hb
        rw [hr, Option.none_or]
        refine (ih _ _).2 ⟨r, c, b, by simpa using h1, h2, h3, by rw [shift], h5, ?_⟩
        intro r' c' b' hb' ho hc' hs
        exact (shift r').symm ▸ h6 (r' + 1) c' b' (by simpa using hb') (by omega) hc' hs

end Sys2Proof.Machine
end

