-- ==== Sys2Proof/Laws/Exec.lean ====
section
/-! SUPPORT. What each meaning that can answer more than one way can answer, once. -/

namespace Sys2Proof.Machine

/-- Everything `RET` can answer (R136). -/
theorem execRet_cases (s : State) :
    (∃ h : 0 < s.sp.val, execRet s = .next
      { s with pc := s.stack[s.sp.val - 1] + 2#16, sp := ⟨s.sp.val - 1, by omega⟩ }) ∨
    (s.sp.val = 0 ∧ execRet s = .fault (.stackUnderflow s.pc)) := by
  unfold execRet
  obtain ⟨h, hp⟩ | ⟨h, hp⟩ := s.pop_cases
  · exact .inl ⟨h, by rw [hp]; rfl⟩
  · exact .inr ⟨h, by rw [hp]; rfl⟩

/-- Everything `CALL` can answer (R134). -/
theorem execCall_cases (nnn : Addr) (s : State) :
    (∃ h : s.sp.val < 16, execCall nnn s = .next
      { s with stack := s.stack.set s.sp.val s.pc, sp := ⟨s.sp.val + 1, by omega⟩, pc := zextAddr nnn }) ∨
    (s.sp.val = 16 ∧ execCall nnn s = .fault (.stackOverflow s.pc)) := by
  unfold execCall
  obtain ⟨h, hp⟩ | ⟨h, hp⟩ := s.push_cases s.pc
  · exact .inl ⟨h, by rw [hp]; rfl⟩
  · exact .inr ⟨h, by rw [hp]; rfl⟩

/-- Everything a store at `I` can answer (R226, R227). -/
theorem State.storeAtI_cases (s : State) (bs : List Byte) :
    ((bs.length = 0 ∨ s.i.toNat + bs.length ≤ 4096) ∧
      s.storeAtI bs = .next (s.setMem (s.mem.putAll s.i.toNat bs)).advance) ∨
    (bs.length ≠ 0 ∧ 4096 < s.i.toNat + bs.length ∧
      s.storeAtI bs = .fault (.outOfBoundsAccess (.mem (max s.i.toNat 4096)))) := by
  unfold State.storeAtI State.dataBase
  obtain ⟨h, hw⟩ | ⟨h, h', hw⟩ := s.mem.writeAll_cases s.i.toNat bs
  · exact .inl ⟨h, by rw [hw]⟩
  · exact .inr ⟨h, h', by rw [hw]; rfl⟩

/-- Everything `LD Vx, [I]` can answer (R228). -/
theorem execLdVxMem_cases (x : RegName) (s : State) :
    (s.i.toNat + x.val ≤ 4095 ∧ execLdVxMem x s = .next
      ((s.setRegs (s.mem.bytesAt s.i.toNat (x.val + 1))).setI (s.i + BitVec.ofNat 16 (x.val + 1))).advance) ∨
    (4095 < s.i.toNat + x.val ∧
      execLdVxMem x s = .fault (.outOfBoundsAccess (.mem (max s.i.toNat 4096)))) := by
  unfold execLdVxMem State.dataBase bulkCount
  obtain ⟨h, hw⟩ | ⟨h, h', hw⟩ := s.mem.readAll_cases s.i.toNat (x.val + 1)
  · exact .inl ⟨by omega, by rw [hw]⟩
  · exact .inr ⟨by omega, by rw [hw]; rfl⟩

/-- Everything `SKP Vx` can answer (R211). -/
theorem execSkp_cases (x : RegName) (s : State) :
    ((s.reg x).toNat < 16 ∧ execSkp x s = .next (s.skipIf (keyDown s.key (s.reg x).toNat))) ∨
    (15 < (s.reg x).toNat ∧ execSkp x s = .fault (.outOfBoundsAccess (.key (s.reg x).toNat))) := by
  unfold execSkp
  split
  · rename_i h
    exact .inl ⟨h, rfl⟩
  · exact .inr ⟨by omega, rfl⟩

/-- Everything `SKNP Vx` can answer (R212). -/
theorem execSknp_cases (x : RegName) (s : State) :
    ((s.reg x).toNat < 16 ∧ execSknp x s = .next (s.skipIf (!keyDown s.key (s.reg x).toNat))) ∨
    (15 < (s.reg x).toNat ∧ execSknp x s = .fault (.outOfBoundsAccess (.key (s.reg x).toNat))) := by
  unfold execSknp
  split
  · rename_i h
    exact .inl ⟨h, rfl⟩
  · exact .inr ⟨by omega, rfl⟩

/-- Everything `LD Vx, K` can answer (R214). -/
theorem execLdVxK_cases (x : RegName) (s : State) :
    (lowestKey s.key = none ∧ execLdVxK x s = .next s) ∨
    (∃ k, lowestKey s.key = some k ∧ execLdVxK x s = .next (s.setReg x (BitVec.ofNat 8 k)).advance) := by
  unfold execLdVxK
  cases h : lowestKey s.key with
  | none => exact .inl ⟨rfl, by simp⟩
  | some k => exact .inr ⟨k, rfl, by simp⟩

/-- The pixels under the set bits of the sprite of a `DRW`. -/
def drwPixels (x y : RegName) (n : Nibble) (s : State) : List (Nat × Nat) :=
  spritePixels (s.reg x).toNat (s.reg y).toNat (s.mem.bytesAt s.i.toNat n.toNat)

/-- Everything `DRW Vx, Vy, n` can answer (R192). -/
theorem execDrw_cases (x y : RegName) (n : Nibble) (s : State) :
    (n.toNat ≠ 0 ∧ 4096 < s.i.toNat + n.toNat ∧
      execDrw x y n s = .fault (.outOfBoundsAccess (.mem (max s.i.toNat 4096)))) ∨
    ((n.toNat = 0 ∨ s.i.toNat + n.toNat ≤ 4096) ∧
      ((∃ p, (drwPixels x y n s).find? offGrid = some p ∧
          execDrw x y n s = .fault (.outOfBoundsAccess (.fb p.1 p.2))) ∨
        ((∀ p ∈ drwPixels x y n s, offGrid p = false) ∧
          execDrw x y n s = .next ((s.setFb (blit s.fb (drwPixels x y n s)).1).setFlag
            (blit s.fb (drwPixels x y n s)).2).advance))) := by
  unfold execDrw State.dataBase
  obtain ⟨h, hr⟩ | ⟨h, h', hr⟩ := s.mem.readAll_cases s.i.toNat n.toNat
  · right
    refine ⟨h, ?_⟩
    rw [hr]
    cases hf : (drwPixels x y n s).find? offGrid with
    | some p => exact .inl ⟨p, rfl, by simp only [drwPixels] at hf; simp [hf, raise]⟩
    | none =>
      right
      refine ⟨fun p hp => by simpa using List.find?_eq_none.1 hf p hp, ?_⟩
      simp only [drwPixels] at hf ⊢
      simp [hf]
  · exact .inl ⟨h, h', by rw [hr]; rfl⟩

/-- A pixel of the sprite of a `DRW` is one under a set bit `(r, c)`, `r < n`, `c < 8` (R191). -/
theorem mem_drwPixels (x y : RegName) (n : Nibble) (s : State) (p : Nat × Nat) :
    p ∈ drwPixels x y n s ↔
      ∃ r c, r < n.toNat ∧ c < 8 ∧ (s.mem.byteAt (s.i.toNat + r)).getLsbD (7 - c) = true ∧
        p = ((s.reg x).toNat + c, (s.reg y).toNat + r) := by
  unfold drwPixels
  rw [mem_spritePixels]
  simp only [Memory.getElem?_bytesAt]
  constructor
  · rintro ⟨r, c, b, hb, hc, hs, rfl⟩
    split at hb
    · rename_i hr
      simp only [Option.some.injEq] at hb
      exact ⟨r, c, hr, hc, hb ▸ hs, rfl⟩
    · simp at hb
  · rintro ⟨r, c, hr, hc, hs, rfl⟩
    exact ⟨r, c, _, by simp [hr], hc, hs, rfl⟩

/-- The pixels of the sprite of a `DRW` are the covered ones (R191). -/
theorem mem_drwPixels_iff_covers (x y : RegName) (n : Nibble) (s : State) (px py : Nat) :
    (px, py) ∈ drwPixels x y n s ↔ s.Covers (s.reg x).toNat (s.reg y).toNat n.toNat px py := by
  rw [mem_drwPixels]
  simp only [State.Covers, State.spriteBit, Prod.mk.injEq]

/-- The off-grid pixel that a `DRW` reports is under its first off-grid bit (R193). -/
theorem find?_drwPixels (x y : RegName) (n : Nibble) (s : State) (p : Nat × Nat) :
    (drwPixels x y n s).find? offGrid = some p ↔
      ∃ r c, s.FirstOffGrid (s.reg x).toNat (s.reg y).toNat n.toNat r c ∧
        p = ((s.reg x).toNat + c, (s.reg y).toNat + r) := by
  have off : ∀ q : Nat × Nat, offGrid q = true ↔ 63 < q.1 ∨ 31 < q.2 := fun q => by
    simp [offGrid]; omega
  unfold drwPixels State.FirstOffGrid
  rw [find?_spritePixels]
  simp only [Memory.getElem?_bytesAt]
  constructor
  · rintro ⟨r, c, b, h1, h2, h3, rfl, h5, h6⟩
    split at h1
    · rename_i hr
      obtain rfl := Option.some.inj h1
      refine ⟨r, c, ⟨hr, h2, h3, (off _).1 h5, ?_⟩, rfl⟩
      intro r' c' ho hc' hs
      have := (offGrid_eq_false_iff _).1 (h6 r' c' _ (by rw [if_pos (by omega)]) ho hc' hs)
      exact ⟨by omega, by omega⟩
    · simp at h1
  · rintro ⟨r, c, ⟨h1, h2, h3, h4, h5⟩, rfl⟩
    refine ⟨r, c, _, by rw [if_pos h1], h2, h3, rfl, (off _).2 h4, ?_⟩
    intro r' c' b' hb' ho hc' hs
    split at hb'
    · obtain rfl := Option.some.inj hb'
      have := h5 r' c' ho hc' hs
      exact (offGrid_eq_false_iff _).2 ⟨by simp only; omega, by simp only; omega⟩
    · simp at hb'

theorem nodup_drwPixels (x y : RegName) (n : Nibble) (s : State) : (drwPixels x y n s).Nodup :=
  nodup_spritePixels _ _ _

/-! ### Every instruction -/

/-- What `exec` can answer as a next state, per instruction, with the condition under which it does. -/
def NextOf (s t : State) : Instr → Prop
  | .cls => t = (s.setFb Framebuffer.blank).advance
  | .ret => ∃ h : 0 < s.sp.val, t = { s with pc := s.stack[s.sp.val - 1] + 2#16, sp := ⟨s.sp.val - 1, by omega⟩ }
  | .sys _ => t = s.advance
  | .jp nnn => t = s.setPc (zextAddr nnn)
  | .call nnn => ∃ h : s.sp.val < 16,
      t = { s with stack := s.stack.set s.sp.val s.pc, sp := ⟨s.sp.val + 1, by omega⟩, pc := zextAddr nnn }
  | .seVxNn x nn => t = s.skipIf (s.reg x == nn)
  | .sneVxNn x nn => t = s.skipIf (s.reg x != nn)
  | .seVxVy x y => t = s.skipIf (s.reg x == s.reg y)
  | .ldVxNn x nn => t = (s.setReg x nn).advance
  | .addVxNn x nn => t = (s.setReg x (s.reg x + nn)).advance
  | .ldVxVy x y => t = (s.setReg x (s.reg y)).advance
  | .orVxVy x y => t = (s.setReg x (s.reg x ||| s.reg y)).advance
  | .andVxVy x y => t = (s.setReg x (s.reg x &&& s.reg y)).advance
  | .xorVxVy x y => t = (s.setReg x (s.reg x ^^^ s.reg y)).advance
  | .addVxVy x y => t = (s.setResultThenFlag x (s.reg x + s.reg y) (carryOut (s.reg x) (s.reg y))).advance
  | .subVxVy x y => t = (s.setResultThenFlag x (s.reg x - s.reg y) (noBorrow (s.reg x) (s.reg y))).advance
  | .shrVx x => t = (s.setResultThenFlag x (s.reg x >>> 1) (lowBit (s.reg x))).advance
  | .shlVx x => t = (s.setResultThenFlag x (s.reg x <<< 1) (highBit (s.reg x))).advance
  | .sneVxVy x y => t = s.skipIf (s.reg x != s.reg y)
  | .ldINnn nnn => t = (s.setI (zextAddr nnn)).advance
  | .jpV0Nnn nnn => t = s.setPc (zextAddr nnn + zextByte (s.reg 0))
  | .rndVxNn x nn => t = (s.useDraw.setReg x (s.currentDraw &&& nn)).advance
  | .drw x y n => (n.toNat = 0 ∨ s.i.toNat + n.toNat ≤ 4096) ∧
      (∀ p ∈ drwPixels x y n s, offGrid p = false) ∧
      t = ((s.setFb (blit s.fb (drwPixels x y n s)).1).setFlag (blit s.fb (drwPixels x y n s)).2).advance
  | .skp x => (s.reg x).toNat < 16 ∧ t = s.skipIf (keyDown s.key (s.reg x).toNat)
  | .sknp x => (s.reg x).toNat < 16 ∧ t = s.skipIf (!keyDown s.key (s.reg x).toNat)
  | .ldVxDt x => t = (s.setReg x s.dt).advance
  | .ldVxK x => (lowestKey s.key = none ∧ t = s) ∨
      ∃ k, lowestKey s.key = some k ∧ t = (s.setReg x (BitVec.ofNat 8 k)).advance
  | .ldDtVx x => t = (s.setDt (s.reg x)).advance
  | .ldStVx x => t = (s.setSt (s.reg x)).advance
  | .addIVx x => t = (s.setI (s.i + zextByte (s.reg x))).advance
  | .ldFVx x => t = (s.setI (glyphAddress (s.reg x))).advance
  | .ldBVx x => s.i.toNat + 3 ≤ 4096 ∧ t = (s.setMem (s.mem.putAll s.i.toNat (bcdDigits (s.reg x)))).advance
  | .ldMemVx x => s.i.toNat + x.val ≤ 4095 ∧ t = (s.setMem (s.mem.putAll s.i.toNat (s.regsUpTo x))).advance
  | .ldVxMem x => s.i.toNat + x.val ≤ 4095 ∧
      t = ((s.setRegs (s.mem.bytesAt s.i.toNat (x.val + 1))).setI (s.i + BitVec.ofNat 16 (x.val + 1))).advance

theorem length_regsUpTo (s : State) (x : RegName) : (s.regsUpTo x).length = x.val + 1 := by
  simp [State.regsUpTo]

/-- Everything a next state of `exec` can be. -/
theorem exec_next {i : Instr} {s t : State} (h : exec i s = .next t) : NextOf s t i := by
  cases i with
  | ret =>
    obtain ⟨hp, e⟩ | ⟨-, e⟩ := execRet_cases s <;> simp only [exec, e] at h
    · exact ⟨hp, by simpa using h.symm⟩
    · simp at h
  | call nnn =>
    obtain ⟨hp, e⟩ | ⟨-, e⟩ := execCall_cases nnn s <;> simp only [exec, e] at h
    · exact ⟨hp, by simpa using h.symm⟩
    · simp at h
  | drw x y n =>
    obtain ⟨-, -, e⟩ | ⟨hm, ⟨p, -, e⟩ | ⟨ho, e⟩⟩ := execDrw_cases x y n s <;> simp only [exec, e] at h
    · simp at h
    · simp at h
    · exact ⟨hm, ho, by simpa using h.symm⟩
  | skp x =>
    obtain ⟨hk, e⟩ | ⟨-, e⟩ := execSkp_cases x s <;> simp only [exec, e] at h
    · exact ⟨hk, by simpa using h.symm⟩
    · simp at h
  | sknp x =>
    obtain ⟨hk, e⟩ | ⟨-, e⟩ := execSknp_cases x s <;> simp only [exec, e] at h
    · exact ⟨hk, by simpa using h.symm⟩
    · simp at h
  | ldVxK x =>
    obtain ⟨hk, e⟩ | ⟨k, hk, e⟩ := execLdVxK_cases x s <;> simp only [exec, e] at h
    · exact .inl ⟨hk, by simpa using h.symm⟩
    · exact .inr ⟨k, hk, by simpa using h.symm⟩
  | ldBVx x =>
    obtain ⟨hm, e⟩ | ⟨-, -, e⟩ := s.storeAtI_cases (bcdDigits (s.reg x)) <;> simp only [exec, execLdBVx, e] at h
    · exact ⟨by simpa using hm, by simpa using h.symm⟩
    · simp at h
  | ldMemVx x =>
    obtain ⟨hm, e⟩ | ⟨-, -, e⟩ := s.storeAtI_cases (s.regsUpTo x) <;> simp only [exec, execLdMemVx, e] at h
    · rw [length_regsUpTo] at hm
      exact ⟨by omega, by simpa using h.symm⟩
    · simp at h
  | ldVxMem x =>
    obtain ⟨hm, e⟩ | ⟨-, e⟩ := execLdVxMem_cases x s <;> simp only [exec, e] at h
    · exact ⟨hm, by simpa using h.symm⟩
    · simp at h
  | _ => exact (Host.Outcome.next.inj h).symm

end Sys2Proof.Machine
end

