-- ==== Sys2Proof/Laws/PerInstr.lean ====
section
/-! SUPPORT. A family of lemmas, one per instruction: the word the encoder gives selects, by mask and match, the
instruction's own row of the table of R96. -/

namespace Sys2Proof.Laws

/-! ### The bits of a format -/

theorem getLsbD_packNnn (f : Nibble) (nnn : Addr) (k : Nat) :
    (packNnn f nnn).getLsbD k = if k < 12 then nnn.getLsbD k else f.getLsbD (k - 12) :=
  BitVec.getLsbD_append

theorem getLsbD_twoNibbles (a b : Nibble) (k : Nat) :
    (a ++ b : BitVec 8).getLsbD k = if k < 4 then b.getLsbD k else a.getLsbD (k - 4) :=
  BitVec.getLsbD_append

theorem getLsbD_twoBytes (a b : Byte) (k : Nat) :
    (a ++ b : BitVec 16).getLsbD k = if k < 8 then b.getLsbD k else a.getLsbD (k - 8) :=
  BitVec.getLsbD_append

theorem getLsbD_packXNn (f : Nibble) (x : RegName) (nn : Byte) (k : Nat) :
    (packXNn f x nn).getLsbD k = if k < 8 then nn.getLsbD k
      else if k - 8 < 4 then (nibbleOf x).getLsbD (k - 8) else f.getLsbD (k - 8 - 4) := by
  rw [packXNn, getLsbD_twoBytes, getLsbD_twoNibbles]

theorem getLsbD_packXYN (f : Nibble) (x y : RegName) (n : Nibble) (k : Nat) :
    (packXYN f x y n).getLsbD k =
      if k < 8 then if k < 4 then n.getLsbD k else (nibbleOf y).getLsbD (k - 4)
      else if k - 8 < 4 then (nibbleOf x).getLsbD (k - 8) else f.getLsbD (k - 8 - 4) := by
  rw [packXYN, getLsbD_twoBytes, getLsbD_twoNibbles, getLsbD_twoNibbles]

/-! ### The bits under the mask of a row -/

theorem packNnn_and (f : Nibble) (nnn : Addr) : packNnn f nnn &&& 0xF000#16 = packNnn f 0#12 := by
  apply BitVec.eq_of_getLsbD_eq
  intro k hk
  rw [BitVec.getLsbD_and, getLsbD_packNnn, getLsbD_packNnn]
  interval_cases k <;> simp

theorem packXNn_and (f : Nibble) (x : RegName) (nn : Byte) :
    packXNn f x nn &&& 0xF000#16 = packXNn f 0 0#8 := by
  apply BitVec.eq_of_getLsbD_eq
  intro k hk
  rw [BitVec.getLsbD_and, getLsbD_packXNn, getLsbD_packXNn]
  interval_cases k <;> simp [nibbleOf]

theorem packXNn_and_sub (f : Nibble) (x : RegName) (nn : Byte) :
    packXNn f x nn &&& 0xF0FF#16 = packXNn f 0 nn := by
  apply BitVec.eq_of_getLsbD_eq
  intro k hk
  rw [BitVec.getLsbD_and, getLsbD_packXNn, getLsbD_packXNn]
  interval_cases k <;> simp [nibbleOf]

theorem packXYN_and (f : Nibble) (x y : RegName) (n : Nibble) :
    packXYN f x y n &&& 0xF000#16 = packXYN f 0 0 0#4 := by
  apply BitVec.eq_of_getLsbD_eq
  intro k hk
  rw [BitVec.getLsbD_and, getLsbD_packXYN, getLsbD_packXYN]
  interval_cases k <;> simp [nibbleOf]

theorem packXYN_and_sub (f : Nibble) (x y : RegName) (n : Nibble) :
    packXYN f x y n &&& 0xF00F#16 = packXYN f 0 0 n := by
  apply BitVec.eq_of_getLsbD_eq
  intro k hk
  rw [BitVec.getLsbD_and, getLsbD_packXYN, getLsbD_packXYN]
  interval_cases k <;> simp [nibbleOf]

namespace EncodingRow

/-- The encoder's word selects the instruction's own row (R96). -/
def Statement (i : Instr) : Prop := ∃ r ∈ opcodeTable, r.num = i.row ∧ encode i &&& r.mask = r.bits

theorem cls : Statement .cls := ⟨⟨1, 0x00E0, 0xF0FF⟩, by decide, rfl, rfl⟩
theorem ret : Statement .ret := ⟨⟨2, 0x00EE, 0xF0FF⟩, by decide, rfl, rfl⟩
theorem sys (nnn : Addr) : Statement (.sys nnn) := ⟨⟨3, 0x0000, 0xF000⟩, by decide, rfl, packNnn_and _ _⟩
theorem jp (nnn : Addr) : Statement (.jp nnn) := ⟨⟨4, 0x1000, 0xF000⟩, by decide, rfl, packNnn_and _ _⟩
theorem call (nnn : Addr) : Statement (.call nnn) := ⟨⟨5, 0x2000, 0xF000⟩, by decide, rfl, packNnn_and _ _⟩
theorem seVxNn (x : RegName) (nn : Byte) : Statement (.seVxNn x nn) :=
  ⟨⟨6, 0x3000, 0xF000⟩, by decide, rfl, packXNn_and _ _ _⟩
theorem sneVxNn (x : RegName) (nn : Byte) : Statement (.sneVxNn x nn) :=
  ⟨⟨7, 0x4000, 0xF000⟩, by decide, rfl, packXNn_and _ _ _⟩
theorem seVxVy (x y : RegName) : Statement (.seVxVy x y) := ⟨⟨8, 0x5000, 0xF000⟩, by decide, rfl, packXYN_and _ _ _ _⟩
theorem ldVxNn (x : RegName) (nn : Byte) : Statement (.ldVxNn x nn) :=
  ⟨⟨9, 0x6000, 0xF000⟩, by decide, rfl, packXNn_and _ _ _⟩
theorem addVxNn (x : RegName) (nn : Byte) : Statement (.addVxNn x nn) :=
  ⟨⟨10, 0x7000, 0xF000⟩, by decide, rfl, packXNn_and _ _ _⟩
theorem ldVxVy (x y : RegName) : Statement (.ldVxVy x y) :=
  ⟨⟨11, 0x8000, 0xF00F⟩, by decide, rfl, packXYN_and_sub _ _ _ _⟩
theorem orVxVy (x y : RegName) : Statement (.orVxVy x y) :=
  ⟨⟨12, 0x8001, 0xF00F⟩, by decide, rfl, packXYN_and_sub _ _ _ _⟩
theorem andVxVy (x y : RegName) : Statement (.andVxVy x y) :=
  ⟨⟨13, 0x8002, 0xF00F⟩, by decide, rfl, packXYN_and_sub _ _ _ _⟩
theorem xorVxVy (x y : RegName) : Statement (.xorVxVy x y) :=
  ⟨⟨14, 0x8003, 0xF00F⟩, by decide, rfl, packXYN_and_sub _ _ _ _⟩
theorem addVxVy (x y : RegName) : Statement (.addVxVy x y) :=
  ⟨⟨15, 0x8004, 0xF00F⟩, by decide, rfl, packXYN_and_sub _ _ _ _⟩
theorem subVxVy (x y : RegName) : Statement (.subVxVy x y) :=
  ⟨⟨16, 0x8005, 0xF00F⟩, by decide, rfl, packXYN_and_sub _ _ _ _⟩
theorem shrVx (x : RegName) : Statement (.shrVx x) := ⟨⟨17, 0x8006, 0xF00F⟩, by decide, rfl, packXYN_and_sub _ _ _ _⟩
theorem shlVx (x : RegName) : Statement (.shlVx x) := ⟨⟨18, 0x800E, 0xF00F⟩, by decide, rfl, packXYN_and_sub _ _ _ _⟩
theorem sneVxVy (x y : RegName) : Statement (.sneVxVy x y) :=
  ⟨⟨19, 0x9000, 0xF000⟩, by decide, rfl, packXYN_and _ _ _ _⟩
theorem ldINnn (nnn : Addr) : Statement (.ldINnn nnn) := ⟨⟨20, 0xA000, 0xF000⟩, by decide, rfl, packNnn_and _ _⟩
theorem jpV0Nnn (nnn : Addr) : Statement (.jpV0Nnn nnn) := ⟨⟨21, 0xB000, 0xF000⟩, by decide, rfl, packNnn_and _ _⟩
theorem rndVxNn (x : RegName) (nn : Byte) : Statement (.rndVxNn x nn) :=
  ⟨⟨22, 0xC000, 0xF000⟩, by decide, rfl, packXNn_and _ _ _⟩
theorem drw (x y : RegName) (n : Nibble) : Statement (.drw x y n) :=
  ⟨⟨23, 0xD000, 0xF000⟩, by decide, rfl, packXYN_and _ _ _ _⟩
theorem skp (x : RegName) : Statement (.skp x) := ⟨⟨24, 0xE09E, 0xF0FF⟩, by decide, rfl, packXNn_and_sub _ _ _⟩
theorem sknp (x : RegName) : Statement (.sknp x) := ⟨⟨25, 0xE0A1, 0xF0FF⟩, by decide, rfl, packXNn_and_sub _ _ _⟩
theorem ldVxDt (x : RegName) : Statement (.ldVxDt x) := ⟨⟨26, 0xF007, 0xF0FF⟩, by decide, rfl, packXNn_and_sub _ _ _⟩
theorem ldVxK (x : RegName) : Statement (.ldVxK x) := ⟨⟨27, 0xF00A, 0xF0FF⟩, by decide, rfl, packXNn_and_sub _ _ _⟩
theorem ldDtVx (x : RegName) : Statement (.ldDtVx x) := ⟨⟨28, 0xF015, 0xF0FF⟩, by decide, rfl, packXNn_and_sub _ _ _⟩
theorem ldStVx (x : RegName) : Statement (.ldStVx x) := ⟨⟨29, 0xF018, 0xF0FF⟩, by decide, rfl, packXNn_and_sub _ _ _⟩
theorem addIVx (x : RegName) : Statement (.addIVx x) := ⟨⟨30, 0xF01E, 0xF0FF⟩, by decide, rfl, packXNn_and_sub _ _ _⟩
theorem ldFVx (x : RegName) : Statement (.ldFVx x) := ⟨⟨31, 0xF029, 0xF0FF⟩, by decide, rfl, packXNn_and_sub _ _ _⟩
theorem ldBVx (x : RegName) : Statement (.ldBVx x) := ⟨⟨32, 0xF033, 0xF0FF⟩, by decide, rfl, packXNn_and_sub _ _ _⟩
theorem ldMemVx (x : RegName) : Statement (.ldMemVx x) :=
  ⟨⟨33, 0xF055, 0xF0FF⟩, by decide, rfl, packXNn_and_sub _ _ _⟩
theorem ldVxMem (x : RegName) : Statement (.ldVxMem x) :=
  ⟨⟨34, 0xF065, 0xF0FF⟩, by decide, rfl, packXNn_and_sub _ _ _⟩

end EncodingRow

end Sys2Proof.Laws
end

