-- ==== Sys2Proof/Laws/Safety.lean ====
section
/-! SUPPORT. The frame from equal fields, and the unobservable parts. -/

namespace Sys2Proof.Machine

/-- A frame holds where every field outside the list is equal. -/
theorem State.sameBut_of_fields {s t : State} {ps : List Part}
    (regs : Part.regs ∉ ps → t.v = s.v) (i : Part.i ∉ ps → t.i = s.i) (pc : Part.pc ∉ ps → t.pc = s.pc)
    (sp : Part.sp ∉ ps → t.sp = s.sp) (stack : Part.stack ∉ ps → t.stack = s.stack)
    (dt : Part.dt ∉ ps → t.dt = s.dt) (st : Part.st ∉ ps → t.st = s.st) (fb : Part.fb ∉ ps → t.fb = s.fb)
    (draw : Part.draw ∉ ps → t.draw = s.draw) (key : Part.key ∉ ps → t.key = s.key)
    (mem : Part.mem ∉ ps → t.mem = s.mem)
    (draws : Part.draws ∉ ps → t.rnd = s.rnd ∧ t.rndCount = s.rndCount) : s.SameBut t ps :=
  ⟨fun h r => by simp [State.reg, regs h], i, pc, sp, fun h j => by rw [stack h], dt, st,
    fun h px py => by rw [fb h], draw, key, fun h a => by rw [mem h], draws⟩

/-- A step that leaves the state as it was (a waiting `LD Vx, K`, a jump to itself) meets every frame. -/
theorem State.sameBut_self (s : State) (ps : List Part) : s.SameBut s ps := by
  simp [State.SameBut]

theorem State.sameToProgram_refl (s : State) : s.SameToProgram s :=
  by constructor <;> intros <;> rfl

end Sys2Proof.Machine
end

