-- ==== Sys2Proof/Tests/Slice0.lean ====
section
/-! SUPPORT. The model's own tests, each on one step of a small state, with the expected result taken from
spec/95_test_vectors.md (its vector is named) or written out from a rule; then one witness per statement that has
hypotheses. -/

namespace Sys2Proof.Tests

open Sys2Proof.Machine

/-! ### Helpers -/

/-- The state after reset with the bytes at an address. -/
def withBytes (a : Nat) (bs : List Byte) (s : State) : State := s.setMem (s.mem.putAll a bs)

/-- One step of the word, placed where the step fetches, with the draw 0. -/
def after (w : Nat) (s : State) : State × StepOutcome := (s.withFetchWord 16 w).stepEvent 0x00#8

/-- The framebuffer in which exactly the pixels of the listed indices are 1. -/
def fbOf (ps : List Nat) : Framebuffer := ps.foldl (fun fb p => Framebuffer.flip fb (p % 64) (p / 64)) Framebuffer.blank

/-- The state after reset. -/
def fresh : State := State.reset

/-- The state after reset with the registers `V[0]`, `V[1]` and `VF`. -/
def regs (v0 v1 vf : Byte) : State := ((fresh.setReg 0 v0).setReg 1 v1).setReg 15 vf

/-- The state after reset with the registers `V[1]`, `V[2]` and `VF`. -/
def pair (v1 v2 vf : Byte) : State := ((fresh.setReg 1 v1).setReg 2 v2).setReg 15 vf

/-- A state with `DRAW` lowered and one sprite at 0x300. -/
def sprite (rows : List Byte) (v0 v1 vf : Byte) : State :=
  (withBytes 0x300 rows ((regs v0 v1 vf).setI 0x300#16)).redrawAck

/-- The stack with `k` entries, each 0x0204. -/
def depth (k : Fin 17) : State := { fresh with sp := k, stack := Vector.replicate 16 0x0204#16 }

/-! ### WellFormed: every check has an ill-formed term it refuses -/

theorem test_wellFormed_refuses_sys_e0 : WellFormed (.sys 0x3E0#12) = false := by decide

theorem test_wellFormed_refuses_sys_ee : WellFormed (.sys 0x0EE#12) = false := by decide

theorem test_wellFormed_accepts_sys : WellFormed (.sys 0x0E1#12) = true := by decide

/-! ### Decoding, by words written out from the encodings of R96 (format and bits of each row) -/

/-- 0000 0000 1110 0000; 0000 1010 1110 1110 (`op[11:8]` ignored); 0000 0001 0010 0011. -/
theorem test_decode_family_0 :
    decode 0b0000000011100000#16 = .ok .cls ∧ decode 0b0000101011101110#16 = .ok .ret ∧
    decode 0b0000000100100011#16 = .ok (.sys 0x123#12) := by decide

/-- 0001, 0010, 1010 and 1011 before a 12-bit address. -/
theorem test_decode_addresses :
    decode 0b0001101010111100#16 = .ok (.jp 0xABC#12) ∧ decode 0b0010001100000001#16 = .ok (.call 0x301#12) ∧
    decode 0b1010111111111110#16 = .ok (.ldINnn 0xFFE#12) ∧
    decode 0b1011001100000100#16 = .ok (.jpV0Nnn 0x304#12) := by decide

/-- 0011, 0100, 0110, 0111 and 1100 before a register and a byte. -/
theorem test_decode_immediates :
    decode 0b0011001100101010#16 = .ok (.seVxNn 3 0x2A#8) ∧ decode 0b0100001100101010#16 = .ok (.sneVxNn 3 0x2A#8) ∧
    decode 0b0110101001000010#16 = .ok (.ldVxNn 10 0x42#8) ∧
    decode 0b0111000100100000#16 = .ok (.addVxNn 1 0x20#8) ∧
    decode 0b1100001000001111#16 = .ok (.rndVxNn 2 0x0F#8) := by decide

/-- 0101 and 1001 before two registers, the last four bits ignored. -/
theorem test_decode_register_skips :
    decode 0b0101000100100111#16 = .ok (.seVxVy 1 2) ∧ decode 0b1001000100101111#16 = .ok (.sneVxVy 1 2) := by
  decide

/-- 1000 before two registers and a sub-opcode in the last four bits. -/
theorem test_decode_alu :
    decode 0b1000000100100000#16 = .ok (.ldVxVy 1 2) ∧ decode 0b1000000100100001#16 = .ok (.orVxVy 1 2) ∧
    decode 0b1000000100100010#16 = .ok (.andVxVy 1 2) ∧ decode 0b1000000100100011#16 = .ok (.xorVxVy 1 2) ∧
    decode 0b1000000100100100#16 = .ok (.addVxVy 1 2) ∧ decode 0b1000000100100101#16 = .ok (.subVxVy 1 2) ∧
    decode 0b1000000100100110#16 = .ok (.shrVx 1) ∧ decode 0b1000000100101110#16 = .ok (.shlVx 1) := by decide

/-- 1101 before two registers and a row count; 1110 before a register and a sub-opcode byte. -/
theorem test_decode_display_and_keypad :
    decode 0b1101000100100101#16 = .ok (.drw 1 2 5#4) ∧ decode 0b1110010010011110#16 = .ok (.skp 4) ∧
    decode 0b1110010010100001#16 = .ok (.sknp 4) := by decide

/-- 1111 before a register and a sub-opcode byte. -/
theorem test_decode_family_f :
    decode 0b1111001100000111#16 = .ok (.ldVxDt 3) ∧ decode 0b1111001000001010#16 = .ok (.ldVxK 2) ∧
    decode 0b1111001100010101#16 = .ok (.ldDtVx 3) ∧ decode 0b1111000000011000#16 = .ok (.ldStVx 0) ∧
    decode 0b1111001000011110#16 = .ok (.addIVx 2) ∧ decode 0b1111000100101001#16 = .ok (.ldFVx 1) ∧
    decode 0b1111000000110011#16 = .ok (.ldBVx 0) ∧ decode 0b1111000101010101#16 = .ok (.ldMemVx 1) ∧
    decode 0b1111001001100101#16 = .ok (.ldVxMem 2) := by decide

/-- V-E7 to V-E10: words that no row selects. -/
theorem test_decode_unknown_words :
    [0x8127#16, 0x8128#16, 0x812F#16, 0x812A#16, 0xE000#16, 0xE19F#16, 0xE1A0#16, 0xF000#16, 0xF1FF#16, 0xF130#16,
      0xF175#16].all (fun w => decide (decode w = .error (.unknownOpcode w))) = true := by decide

/-- The bytes of a word lie in memory high byte first (R65), and fewer than two bytes are no instruction (R90). -/
theorem test_decode_bytes :
    decodeBytes [0x12#8, 0x34#8, 0x56#8] = .ok (.jp 0x234#12, [0x56#8]) ∧ decodeBytes [0x12#8] = .error .truncated ∧
    decodeTableWord 16 0x612A = some (.ldVxNn 1 0x2A#8) ∧ decodeTableWord 16 0x8127 = none := by decide

/-! ### Fetch -/

/-- V-E14: the byte at the lower address is the high-order byte. -/
theorem test_fetch_big_endian :
    ((withBytes 0x200 [0x12#8, 0x34#8] fresh).stepEvent 0).1.pc = 0x234#16 := by decide

/-- V-E11: an odd `PC` is legal. -/
theorem test_fetch_odd_pc :
    ((withBytes 0x201 [0x61#8, 0x2A#8] (fresh.setPc 0x201#16)).stepEvent 0).1.reg 1 = 0x2A#8 := by decide

/-- V-E13: at 0xFFF the second byte is outside memory. -/
theorem test_fetch_at_last_byte :
    ((fresh.setPc 0xFFF#16).stepEvent 0).2 = .fault (.outOfBoundsAccess (.mem 0x1000)) := by decide

/-- V-C4, second step: at 0x10FE the first byte is outside memory. -/
theorem test_fetch_above_memory :
    ((fresh.setPc 0x10FE#16).stepEvent 0).2 = .fault (.outOfBoundsAccess (.mem 0x10FE)) := by decide

/-- V-E7: an unknown word is reported with its address, and nothing changes. -/
theorem test_unknown_word_reported :
    after 0x8127 (pair 3 0 0) = ((pair 3 0 0).withFetchWord 16 0x8127, .fault (.unknownOpcode 0x8127#16 0x200#16)) := by
  decide

/-! ### Control transfer -/

/-- V-E3. -/
theorem test_sys : after 0x00E1 fresh = ((fresh.withFetchWord 16 0x00E1).setPc 0x202#16, .done) := by decide

/-- V-C1. -/
theorem test_jp : (after 0x1ABC fresh).1.pc = 0x0ABC#16 := by decide

/-- V-C6. -/
theorem test_call_fills_the_last_entry :
    (after 0x2300 (depth 15)).1.stack[15] = 0x0200#16 ∧ (after 0x2300 (depth 15)).1.sp = 16 ∧
    (after 0x2300 (depth 15)).1.pc = 0x300#16 := by decide

/-- V-C7. -/
theorem test_call_overflows : (after 0x2300 (depth 16)).2 = .fault (.stackOverflow 0x200#16) := by decide

/-- V-C10. -/
theorem test_ret :
    (after 0x00EE (depth 1)).1.pc = 0x206#16 ∧ (after 0x00EE (depth 1)).1.sp = 0 ∧
    (after 0x00EE (depth 1)).1.stack[0] = 0x0204#16 := by decide

/-- V-C8. -/
theorem test_ret_underflows : (after 0x00EE fresh).2 = .fault (.stackUnderflow 0x200#16) := by decide

/-- V-C4, first step: no wrap to 12 bits. -/
theorem test_jpV0_no_wrap : (after 0xBFFF (regs 0xFF 0 0)).1.pc = 0x10FE#16 := by decide

/-- V-C5: `V[0]`, not `V[3]`. -/
theorem test_jpV0_reads_v0 : (after 0xB300 ((regs 0x04 0 0).setReg 3 0x80#8)).1.pc = 0x304#16 := by decide

/-! ### Skips -/

/-- S6. -/
theorem test_se_immediate :
    (after 0x332A (fresh.setReg 3 0x2A#8)).1.pc = 0x204#16 ∧ (after 0x3329 (fresh.setReg 3 0x2A#8)).1.pc = 0x202#16 ∧
    (after 0x332B (fresh.setReg 3 0x2A#8)).1.pc = 0x202#16 := by decide

/-- V-S1. -/
theorem test_sne_immediate :
    (after 0x432A (fresh.setReg 3 0x2A#8)).1.pc = 0x202#16 ∧
    (after 0x4300 (fresh.setReg 3 0x2A#8)).1.pc = 0x204#16 := by decide

/-- V-E5 and V-S4. -/
theorem test_se_registers :
    (after 0x5127 (pair 7 7 0)).1.pc = 0x204#16 ∧ (after 0x5F00 (regs 1 0 1)).1.pc = 0x204#16 := by decide

/-- V-E6 and V-S3. -/
theorem test_sne_registers :
    (after 0x912F (pair 7 8 0)).1.pc = 0x204#16 ∧ (after 0x9110 (pair 9 0 0)).1.pc = 0x202#16 := by decide

/-! ### Immediates and random -/

/-- V-I1 and V-I2. -/
theorem test_ld_immediate :
    (after 0x6A42 fresh).1.reg 10 = 0x42#8 ∧ (after 0x6F12 fresh).1.reg 15 = 0x12#8 := by decide

/-- V-I3. -/
theorem test_add_immediate_no_carry :
    (after 0x7001 (regs 0xFF 0 0xAA)).1.reg 0 = 0x00#8 ∧ (after 0x7001 (regs 0xFF 0 0xAA)).1.reg 15 = 0xAA#8 := by
  decide

/-- V-I5. -/
theorem test_add_immediate_wraps : (after 0x7120 (pair 0xF0 0 0)).1.reg 1 = 0x10#8 := by decide

/-- V-I6. -/
theorem test_ld_index : (after 0xAFFF fresh).1.i = 0x0FFF#16 := by decide

/-- V-I7. -/
theorem test_rnd_masks : ((fresh.withFetchWord 16 0xC20F).stepEvent 0xB7#8).1.reg 2 = 0x07#8 := by decide

/-- V-I9. -/
theorem test_rnd_zero_mask :
    ((((pair 0 9 0)).withFetchWord 16 0xC200).stepEvent 0xFF#8).1.reg 2 = 0x00#8 := by decide

/-! ### ALU -/

/-- V-A1. -/
theorem test_ld_register : (after 0x8120 (pair 0 0x99 0x31)).1.reg 1 = 0x99#8 := by decide

/-- V-A3. -/
theorem test_or :
    (after 0x8121 (pair 0xF0 0x0C 0x77)).1.reg 1 = 0xFC#8 ∧
    (after 0x8121 (pair 0xF0 0x0C 0x77)).1.reg 15 = 0x77#8 := by decide

/-- V-A4. -/
theorem test_and : (after 0x8122 (pair 0xF0 0x3C 0)).1.reg 1 = 0x30#8 := by decide

/-- V-A5. -/
theorem test_xor : (after 0x8123 (pair 0xF0 0x3C 0)).1.reg 1 = 0xCC#8 := by decide

/-- S1 and V-A8: the flag is written even when it is 0. -/
theorem test_add_registers :
    (after 0x8124 (pair 0xFF 0x01 0)).1.reg 1 = 0x00#8 ∧ (after 0x8124 (pair 0xFF 0x01 0)).1.reg 15 = 1#8 ∧
    (after 0x8124 (pair 0x80 0x7F 1)).1.reg 15 = 0#8 := by decide

/-- V-A10 and V-A13: with `VF` as destination the flag stays; as source the old value is added. -/
theorem test_add_with_vf :
    (after 0x8F14 (pair 0x01 0 0xFF)).1.reg 15 = 0x01#8 ∧ (after 0x81F4 (pair 0xFF 0 0x01)).1.reg 1 = 0x00#8 := by
  decide

/-- S2 and V-A14. -/
theorem test_sub :
    (after 0x8125 (pair 1 2 1)).1.reg 1 = 0xFF#8 ∧ (after 0x8125 (pair 1 2 1)).1.reg 15 = 0#8 ∧
    (after 0x8125 (pair 5 5 0)).1.reg 15 = 1#8 := by decide

/-- V-A19: the old `VF` is the subtrahend. -/
theorem test_sub_with_vf :
    (after 0x81F5 (pair 3 0 5)).1.reg 1 = 0xFE#8 ∧ (after 0x81F5 (pair 3 0 5)).1.reg 15 = 0#8 := by decide

/-- S3: `V[y]` is not used. -/
theorem test_shr :
    (after 0x8126 (pair 0x03 0xF0 0)).1.reg 1 = 0x01#8 ∧ (after 0x8126 (pair 0x03 0xF0 0)).1.reg 15 = 1#8 ∧
    (after 0x8126 (pair 0x03 0xF0 0)).1.reg 2 = 0xF0#8 := by decide

/-- V-A22: the old bit 0 stays, the shifted value is lost. -/
theorem test_shr_vf : (after 0x8F06 (pair 0 0 0x05)).1.reg 15 = 0x01#8 := by decide

/-- V-A23. -/
theorem test_shl :
    (after 0x812E (pair 0x81 0 0)).1.reg 1 = 0x02#8 ∧ (after 0x812E (pair 0x81 0 0)).1.reg 15 = 1#8 := by decide

/-- V-A26. -/
theorem test_shl_vf : (after 0x8FFE (pair 0 0 0x7F)).1.reg 15 = 0x00#8 := by decide

/-! ### Display -/

/-- V-E1. -/
theorem test_cls :
    (after 0x05E0 (({ fresh with fb := fbOf [5] }).redrawAck)).1.fb = Framebuffer.blank ∧
    (after 0x05E0 (({ fresh with fb := fbOf [5] }).redrawAck)).1.draw = true := by decide

/-- V-D2: row 2 at column 4. -/
theorem test_drw_draws :
    (after 0xD011 (sprite [0xC3#8] 4 2 9)).1.fb = fbOf [132, 133, 138, 139] ∧
    (after 0xD011 (sprite [0xC3#8] 4 2 9)).1.reg 15 = 0#8 ∧
    (after 0xD011 (sprite [0xC3#8] 4 2 9)).1.draw = true := by decide

/-- V-D4 and V-D14: a set bit at column 64 rejects the whole; a pixel that was 1 collides. -/
theorem test_drw_edge_and_collision :
    after 0xD011 (sprite [0xFF#8] 57 3 1) =
      ((sprite [0xFF#8] 57 3 1).withFetchWord 16 0xD011, .fault (.outOfBoundsAccess (.fb 64 3))) ∧
    (after 0xD011 { sprite [0xC0#8] 0 0 0 with fb := fbOf [1] }).1.fb = fbOf [0] ∧
    (after 0xD011 { sprite [0xC0#8] 0 0 0 with fb := fbOf [1] }).1.reg 15 = 1#8 := by decide

/-! ### Keypad -/

/-- V-K1 and V-K4. -/
theorem test_skp :
    (after 0xE49E ((fresh.setReg 4 10#8).keySet 10 true)).1.pc = 0x204#16 ∧
    (after 0xE49E (fresh.setReg 4 16#8)).2 = .fault (.outOfBoundsAccess (.key 16)) := by decide

/-- V-K1 and V-K5. -/
theorem test_sknp :
    (after 0xE4A1 ((fresh.setReg 4 10#8).keySet 10 true)).1.pc = 0x202#16 ∧
    (after 0xE4A1 (fresh.setReg 4 0xFF#8)).2 = .fault (.outOfBoundsAccess (.key 255)) := by decide

/-- V-K6: the lowest pressed index. -/
theorem test_key_wait_takes_lowest :
    (after 0xF20A ((fresh.keySet 7 true).keySet 3 true)).1.reg 2 = 0x03#8 := by decide

/-- V-K7: no key pressed. -/
theorem test_key_wait_waits :
    after 0xF20A (pair 0 9 0) = ((pair 0 9 0).withFetchWord 16 0xF20A, .waiting) := by decide

/-! ### Timers, index, memory -/

/-- V-T1. -/
theorem test_ld_vx_dt : (after 0xF307 (fresh.setDt 0x2A#8)).1.reg 3 = 0x2A#8 := by decide

/-- V-T2. -/
theorem test_ld_dt_vx : (after 0xF315 (fresh.setReg 3 0x3C#8)).1.dt = 0x3C#8 := by decide

/-- V-T5: writing 0 cancels the pending pulse. -/
theorem test_ld_st_vx : (after 0xF018 (fresh.setSt 1#8)).1.st = 0#8 ∧ (after 0xF018 (fresh.setSt 1#8)).1.tick.2 = false := by
  decide

/-- V-M3: modulo 65536, no flag. -/
theorem test_add_i :
    (after 0xF21E ((pair 0 1 7).setI 0xFFFF#16)).1.i = 0#16 ∧
    (after 0xF21E ((pair 0 1 7).setI 0xFFFF#16)).1.reg 15 = 7#8 := by decide

/-- V-M5 and V-M6. -/
theorem test_ld_f :
    (after 0xF129 (pair 0x0F 0 0)).1.i = 0x009B#16 ∧ (after 0xF129 (pair 0xFF 0 0)).1.i = 0x054B#16 := by decide

/-- S7. -/
theorem test_ld_b :
    (after 0xF033 ((regs 234 0 0).setI 0x300#16)).1.mem.bytesAt 0x2FF 5 = [0#8, 2#8, 3#8, 4#8, 0#8] := by decide

/-- V-M10: addresses are naturals and do not wrap. -/
theorem test_ld_b_no_wrap :
    (after 0xF033 ((regs 255 0 0).setI 0xFFFF#16)).2 = .fault (.outOfBoundsAccess (.mem 0xFFFF)) := by decide

/-- V-M11. -/
theorem test_store :
    (after 0xF155 ((regs 0x11 0x22 0).setI 0x400#16)).1.mem.bytesAt 0x3FF 4 = [0#8, 0x11#8, 0x22#8, 0#8] ∧
    (after 0xF155 ((regs 0x11 0x22 0).setI 0x400#16)).1.i = 0x400#16 := by decide

/-- V-M13: nothing is written when one address is outside. -/
theorem test_store_faults_whole :
    after 0xFF55 ((regs 1 0 0xEE).setI 0xFF1#16) =
      (((regs 1 0 0xEE).setI 0xFF1#16).withFetchWord 16 0xFF55, .fault (.outOfBoundsAccess (.mem 0x1000))) := by
  decide

/-- V-M15. -/
theorem test_load_registers :
    (after 0xF065 (withBytes 0x300 [0x77#8, 0x88#8] ((regs 0 5 0).setI 0x300#16))).1.reg 0 = 0x77#8 ∧
    (after 0xF065 (withBytes 0x300 [0x77#8, 0x88#8] ((regs 0 5 0).setI 0x300#16))).1.reg 1 = 5#8 ∧
    (after 0xF065 (withBytes 0x300 [0x77#8, 0x88#8] ((regs 0 5 0).setI 0x300#16))).1.i = 0x301#16 := by decide

/-- V-M17: up to the last byte of memory, after which `I` is 0x1000. -/
theorem test_load_registers_to_the_end :
    (after 0xFF65 (withBytes 0xFF0 [1#8] (fresh.setI 0xFF0#16))).1.i = 0x1000#16 := by decide

/-! ### The other events -/

/-- V-T4, the first two ticks. -/
theorem test_tick :
    (((fresh.setDt 255#8).setSt 2#8).ticks 2).2 = [false, true] ∧
    (((fresh.setDt 255#8).setSt 2#8).ticks 2).1.dt = 253#8 := by decide

/-- V-T3: no underflow. -/
theorem test_tick_at_zero : fresh.tick = (fresh, false) := by decide

/-- V-R1: `KEY` keeps its value over a reset, the registers do not. -/
theorem test_reset_keeps_keys :
    (((regs 1 2 3).keySet 3 true).resetEvent defaultFont).key = 0x0008#16 ∧
    (((regs 1 2 3).keySet 3 true).resetEvent defaultFont).reg 1 = 0#8 := by decide

/-- R38, glyphs 0 and F of the default font, at both ends of the font area. -/
theorem test_font_bounds :
    fresh.mem.bytesAt 0x04F 6 = [0#8, 0xF0#8, 0x90#8, 0x90#8, 0x90#8, 0xF0#8] ∧
    fresh.mem.bytesAt 0x09B 6 = [0xF0#8, 0x80#8, 0xF0#8, 0x80#8, 0x80#8, 0#8] := by decide

/-- A font other than the default: 80 bytes of 0x3C. -/
def otherFont : Config.FontRom := Vector.replicate 80 0x3C#8

/-- R36, R38: the font that `reset` is given is what lies at 0x050 to 0x09F, and nothing of it lies outside. -/
theorem test_reset_with_another_font :
    (State.resetWith otherFont).mem.byteAt 0x050 = 0x3C#8 ∧ (State.resetWith otherFont).mem.byteAt 0x09F = 0x3C#8 ∧
    (State.resetWith otherFont).mem.byteAt 0x04F = 0#8 ∧ (State.resetWith otherFont).mem.byteAt 0x0A0 = 0#8 := by
  simp [State.resetWith, byteAt_resetMemory, otherFont]

/-- V-R5: an image of odd length. -/
theorem test_load :
    (match fresh.load [0x60#8, 0x01#8, 0x70#8] with
      | .ok t => t.mem.bytesAt 0x200 4
      | .error _ => []) = [0x60#8, 0x01#8, 0x70#8, 0x00#8] := by decide

/-- R46, R308: the schedules that are refused. -/
theorem test_refused_schedules :
    Session.issue defaultFont (.step 0) ⟨fresh, .beforeReset⟩ = .error .beforeReset ∧
    Session.run defaultFont [.reset, .step 0, .load []] ⟨fresh, .beforeReset⟩ = .error .loadClosed := by decide

/-- R60, canonical form: storing what an unlisted address reads as lists nothing. -/
theorem test_memory_is_canonical :
    Memory.put (Memory.put [] 0x300 7#8) 0x300 0#8 = [] ∧ Memory.put [] 0x050 0xF0#8 = [] ∧
    Memory.wf (Memory.put [] 0x050 0#8) = true := by decide

/-! ### Witnesses: for each statement with hypotheses, values that meet them together, clause by clause -/

/-- The state after reset with a word at `PC`. -/
def at200 (hi lo : Byte) (s : State) : State := withBytes 0x200 [hi, lo] s

theorem witness_DecodeOfEncodeIsTheInstruction :
    WellFormed (.sys 0xFE1#12) = true ∧ WellFormed (.drw 1 2 15#4) = true := by decide

theorem witness_ReencodingZeroesOnlyIgnoredBits : decode 0x5127#16 = .ok (.seVxVy 1 2) := by decide

/-- The three clauses at 4094, 4095 and 4096. -/
theorem witness_FetchSucceedsExactlyUpTo4094 :
    (fresh.setPc 4094#16).pc.toNat ≤ 4094 ∧ (fresh.setPc 4095#16).pc.toNat = 4095 ∧
    4096 ≤ (fresh.setPc 4096#16).pc.toNat := by decide

theorem witness_StepRunsTheDecodedInstruction :
    (at200 0x12 0x34 fresh).pc.toNat ≤ 4094 ∧
    (0x1234#16).toNat = ((at200 0x12 0x34 fresh).mem.byteAt (at200 0x12 0x34 fresh).pc.toNat).toNat * 256 +
      ((at200 0x12 0x34 fresh).mem.byteAt ((at200 0x12 0x34 fresh).pc.toNat + 1)).toNat ∧
    decode 0x1234#16 = .ok (.jp 0x234#12) := by decide

/-- An unknown word fetched, and one that is known. -/
theorem witness_UnknownWordsAreReportedWhole :
    (at200 0x81 0x27 fresh).pc.toNat ≤ 4094 ∧
    (0x8127#16).toNat = ((at200 0x81 0x27 fresh).mem.byteAt (at200 0x81 0x27 fresh).pc.toNat).toNat * 256 +
      ((at200 0x81 0x27 fresh).mem.byteAt ((at200 0x81 0x27 fresh).pc.toNat + 1)).toNat ∧
    family 0x8127#16 = 0x8#4 ∧ fieldN 0x8127#16 = 0x7#4 ∧ fieldN 0x8126#16 = 0x6#4 := by decide

/-- A step that faults at each of the four places: the fetch (twice), decode, the instruction. -/
theorem witness_StepFaultsExactlyAsTheTableSays :
    ((fresh.setPc 4095#16).stepEvent 0).2 = .fault (.outOfBoundsAccess (.mem 4096)) ∧
    ((fresh.setPc 4096#16).stepEvent 0).2 = .fault (.outOfBoundsAccess (.mem 4096)) ∧
    ((at200 0xF1 0xFF fresh).stepEvent 0).2 = .fault (.unknownOpcode 0xF1FF#16 0x200#16) ∧
    ((at200 0x00 0xEE fresh).stepEvent 0).2 = .fault (.stackUnderflow 0x200#16) := by decide

theorem witness_CallPushesItsOwnAddressOrOverflows :
    (depth 0).sp.val < 16 ∧ (depth 15).sp.val < 16 ∧ (depth 16).sp.val = 16 := by decide

theorem witness_RetPopsIntoPcPlusTwoOrUnderflows :
    0 < (depth 1).sp.val ∧ 0 < (depth 16).sp.val ∧ (depth 0).sp.val = 0 := by decide

/-- At depth 15: a `CALL` whose target holds a `RET`. -/
theorem witness_CallThenRetReturnsPastTheCall :
    (depth 15).sp.val < 16 ∧
    (withBytes 0x300 [0x00#8, 0xEE#8] (at200 0x23 0x00 (depth 15))).currentInstr = some (.call 0x300#12) ∧
    ((withBytes 0x300 [0x00#8, 0xEE#8] (at200 0x23 0x00 (depth 15))).stepEvent 0).1.currentInstr = some .ret := by
  decide

theorem witness_RndWithoutADrawMasksTheFreeValue : fresh.rnd = none := rfl

/-- The memory clause at 4096 and just below; a first set bit off the grid (column 64, by the eighth bit); a sprite
that ends at column 63 and row 31. -/
theorem witness_DrwTogglesTheSpriteOrFaultsWhole :
    (1 ≤ (1#4).toNat ∧ 4095 < (fresh.setI 4096#16).i.toNat + (1#4).toNat - 1) ∧
    (fresh.setI 4095#16).i.toNat + (1#4).toNat - 1 ≤ 4095 ∧
    (0#4).toNat = 0 ∧
    (sprite [0xFF#8] 57 3 0).FirstOffGrid 57 3 1 0 7 ∧
    (∀ r c, r < (1#4).toNat → c < 8 → (sprite [0xFF#8] 56 31 0).spriteBit r c = true → 56 + c ≤ 63 ∧ 31 + r ≤ 31) := by
  refine ⟨by decide, by decide, rfl, ⟨by decide, by decide, by decide, by decide, fun r c h hc _ => by omega⟩,
    fun r c hr hc _ => ?_⟩
  have : (1#4).toNat = 1 := rfl
  omega

/-- The two answers of the flag: no covered pixel 1, and one of them 1. -/
theorem witness_DrwFlagClauses :
    (∃ px py, (sprite [0x80#8] 2 3 0).Covers 2 3 1 px py ∧
      Framebuffer.pixel (fbOf [194]) px py = true) ∧
    (∀ px py, (sprite [0x80#8] 2 3 0).Covers 2 3 1 px py →
      Framebuffer.pixel (sprite [0x80#8] 2 3 0).fb px py = false) := by
  refine ⟨⟨2, 3, ⟨0, 0, by decide, by decide, by decide, rfl, rfl⟩, by decide⟩, ?_⟩
  rintro px py -
  exact Framebuffer.pixel_blank px py

/-- The second state is the first draw's own. -/
theorem witness_DrawingTwiceRestoresTheScreen :
    ∃ t, exec (.drw 0 1 1#4) (sprite [0xC0#8] 4 2 0) = .next t ∧ t.fb ≠ (sprite [0xC0#8] 4 2 0).fb ∧
      t.reg 0 = (sprite [0xC0#8] 4 2 0).reg 0 ∧ t.reg 1 = (sprite [0xC0#8] 4 2 0).reg 1 ∧
      t.i = (sprite [0xC0#8] 4 2 0).i ∧ ∀ a, t.mem.byteAt a = (sprite [0xC0#8] 4 2 0).mem.byteAt a :=
  ⟨_, rfl, by decide, rfl, rfl, rfl, fun _ => rfl⟩

theorem witness_KeySkipsReadTheLevelOrFault :
    ((fresh.setReg 4 15#8).reg 4).toNat ≤ 15 ∧ 15 < ((fresh.setReg 4 16#8).reg 4).toNat := by decide

/-- No key pressed; the lowest pressed key at 15, and at 3 below 7. -/
theorem witness_KeyWaitHoldsOrTakesTheLowestKey :
    (∀ k, k < 16 → fresh.key.getLsbD k = false) ∧ (at200 0xF2 0x0A fresh).currentInstr = some (.ldVxK 2) ∧
    (at200 0xF2 0x0A fresh).rnd = none ∧
    ((fresh.keySet 15 true).key.getLsbD 15 = true ∧ ∀ j, j < 15 → (fresh.keySet 15 true).key.getLsbD j = false) ∧
    (((fresh.keySet 7 true).keySet 3 true).key.getLsbD 3 = true ∧
      ∀ j, j < 3 → ((fresh.keySet 7 true).keySet 3 true).key.getLsbD j = false) := by decide

/-- Each side of the statement happens: a step that waits, one that faults, one that is done. -/
theorem witness_EveryStepIsDoneWaitingOrAFault :
    (at200 0xF2 0x0A fresh).rnd = none ∧ ((at200 0xF2 0x0A fresh).stepEvent 0).2 = .waiting ∧
    ((at200 0x00 0xEE fresh).stepEvent 0).2 ≠ .done ∧ ((at200 0x12 0x00 fresh).stepEvent 0).2 = .done := by decide

theorem witness_LdBVxStoresThreeDigitsOrFaults :
    (fresh.setI 4093#16).i.toNat + 2 ≤ 4095 ∧ 4095 < (fresh.setI 4094#16).i.toNat + 2 := by decide

/-- Both transfers, at `I + x = 4095` and at 4096. -/
theorem witness_bulk_transfers :
    (fresh.setI 4080#16).i.toNat + (15 : RegName).val ≤ 4095 ∧
    4095 < (fresh.setI 4081#16).i.toNat + (15 : RegName).val := by decide

/-- The state after the store is one of those the statement speaks of. -/
theorem witness_StoreThenLoadReadsBackTheRegisters :
    ((regs 1 2 3).setI 4094#16).i.toNat + (1 : RegName).val ≤ 4095 ∧
    ∃ t, exec (.ldMemVx 1) ((regs 1 2 3).setI 4094#16) = .next t ∧ t.i = ((regs 1 2 3).setI 4094#16).i :=
  ⟨by decide, _, rfl, rfl⟩

/-- V-M14, and the stored word decodes. -/
theorem witness_StoreIsSeenByTheNextFetch :
    (at200 0xF1 0x55 ((regs 0x6A 0x42 0).setI 0x202#16)).currentInstr = some (.ldMemVx 1) ∧
    1 ≤ (1 : RegName).val ∧
    (at200 0xF1 0x55 ((regs 0x6A 0x42 0).setI 0x202#16)).i.toNat =
      (at200 0xF1 0x55 ((regs 0x6A 0x42 0).setI 0x202#16)).pc.toNat + 2 ∧
    (at200 0xF1 0x55 ((regs 0x6A 0x42 0).setI 0x202#16)).i.toNat + (1 : RegName).val ≤ 4095 ∧
    decode (wordOfBytes 0x6A 0x42) = .ok (.ldVxNn 10 0x42#8) := by decide

/-- The first of one tick and the last of two, with `ST = 2`. -/
theorem witness_ToneSoundsOnceAtTheLastCount :
    0 < 1 ∧ 1 < 2 ∧ ((fresh.setSt 2#8).ticks 2).2 = [false, true] := by decide

/-- The event that lowers the flag, and an instruction after it. -/
theorem witness_RedrawAckAloneLowersTheRedrawFlag :
    (∃ d o, Session.issue defaultFont .redrawAck ⟨fresh, .loadable⟩ = .ok (d, o) ∧ fresh.draw = true ∧ d.core.draw = false) ∧
    (∃ t, exec .cls fresh.redrawAck = .next t) ∧ ∃ t, exec (.drw 0 0 1#4) fresh.redrawAck = .next t :=
  ⟨⟨_, _, rfl, rfl, rfl⟩, ⟨_, rfl⟩, _, rfl⟩

/-- The sums 4094 and 4095, and the jump to 0xFFF. -/
theorem witness_jumps_to_the_end_of_memory :
    ¬ 4094 < (0xFFE#12).toNat + ((regs 0 0 0).reg 0).toNat ∧ 4094 < (0xFFE#12).toNat + ((regs 1 0 0).reg 0).toNat ∧
    (0xFFF#12).toNat = 0xFFF := by decide

theorem witness_LoadCopiesTheImageOrRejectsItWhole :
    (List.replicate 3584 0x12#8).length ≤ 3584 ∧ 3584 < (List.replicate 3585 0x12#8).length ∧
    (⟨fresh, .loadable⟩ : Session).phase = .loadable ∧ [0x12#8, 0x34#8][1]? = some 0x34#8 := by
  refine ⟨?_, ?_, rfl, rfl⟩ <;> rw [List.length_replicate]
  omega

/-- After a `load`, and after a `step`, with other events before the next `load`. -/
theorem witness_LoadIsLegalOnceBeforeTheFirstStep :
    (∃ d, Session.issue defaultFont (.load [0x12#8]) ⟨fresh, .loadable⟩ = .ok (d, .loadOk) ∧
      ∃ e os, Session.run defaultFont [.tick, .redrawAck] d = .ok (e, os) ∧ Event.reset ∉ [Event.tick, .redrawAck]) ∧
    (∃ d o, Session.issue defaultFont (.step 0) ⟨fresh, .loadable⟩ = .ok (d, o) ∧
      ∃ e os, Session.run defaultFont [.tick] d = .ok (e, os) ∧ Event.reset ∉ [Event.tick]) ∧
    (∃ d, Session.issue defaultFont .tick ⟨fresh, .loadable⟩ = .ok (d, .tone false) ∧ d.phase = .loadable) :=
  ⟨⟨_, rfl, _, _, rfl, by decide⟩, ⟨_, _, rfl, _, _, rfl, by decide⟩, _, rfl, rfl⟩

theorem witness_FaultingStepChangesNothingAndRepeats :
    ((at200 0x23 0x00 (depth 16)).stepEvent 7).2 = .fault (.stackOverflow 0x200#16) := by decide

/-- A state with an entry on the stack that meets the invariant, and a step from it. -/
theorem witness_EveryStepKeepsTheInvariant :
    (at200 0x00 0xEE (depth 1)).Inv ∧ ∃ t, step (at200 0x00 0xEE (depth 1)) = .next t :=
  ⟨⟨by decide, by decide, by decide⟩, _, rfl⟩

/-- A schedule from a state that is not canonical, before the first `reset`. -/
theorem witness_EveryScheduleKeepsTheInvariant :
    (∃ d os, Session.run defaultFont [.reset, .load [0x12#8, 0x00#8], .step 0, .tick]
      ⟨{ fresh with mem := [(5000, 1#8)] }, .beforeReset⟩ = .ok (d, os) ∧ d.phase ≠ .beforeReset) ∧
    Memory.wf [(5000, 1#8)] = false :=
  ⟨⟨_, _, rfl, by decide⟩, by decide⟩

/-- Memories built in different orders that read the same. -/
theorem witness_CanonicalMemoryIsDeterminedByReads :
    Memory.wf (Memory.put (Memory.put [] 0x300 1#8) 0x200 2#8) = true ∧
    Memory.wf (Memory.put (Memory.put [] 0x200 2#8) 0x300 1#8) = true ∧
    ∀ a, (Memory.put (Memory.put [] 0x300 1#8) 0x200 2#8).read a = (Memory.put (Memory.put [] 0x200 2#8) 0x300 1#8).read a :=
  ⟨by decide, by decide, fun _ => rfl⟩

/-- Two different states that a program cannot tell apart. -/
theorem witness_ProgramCannotObserveSoundRedrawOrStaleStack :
    (depth 1).SameToProgram { depth 1 with st := 9#8, draw := false, stack := (depth 1).stack.set 1 7#16 } ∧
    depth 1 ≠ { depth 1 with st := 9#8, draw := false, stack := (depth 1).stack.set 1 7#16 } :=
  ⟨⟨fun _ => rfl, rfl, rfl, rfl, by decide, rfl, rfl, rfl, rfl, rfl, rfl⟩, by decide⟩

theorem witness_PcAfterEveryInstruction :
    (∃ t, exec (.seVxNn 0 0#8) fresh = .next t ∧ t.pc = 0x204#16) ∧
    ((at200 0x00 0xEE fresh).stepEvent 0).2 = .fault (.stackUnderflow 0x200#16) :=
  ⟨⟨_, rfl, rfl⟩, by decide⟩

/-- An instruction that changes each piece of state. -/
theorem witness_OnlyTheNamedInstructionsWriteEachState :
    (∃ t, exec (.ldINnn 5#12) fresh = .next t ∧ t.i ≠ fresh.i) ∧
    (∃ t, exec (.call 5#12) fresh = .next t ∧ t.sp ≠ fresh.sp ∧ ∃ j : Fin 16, t.stack[j] ≠ fresh.stack[j]) ∧
    (∃ t, exec (.ldDtVx 1) (regs 0 9 0) = .next t ∧ t.dt ≠ (regs 0 9 0).dt) ∧
    (∃ t, exec (.ldStVx 1) (regs 0 9 0) = .next t ∧ t.st ≠ (regs 0 9 0).st) ∧
    (∃ t, exec .cls { fresh with fb := fbOf [5], draw := false } = .next t ∧
      Framebuffer.pixel t.fb 5 0 ≠ Framebuffer.pixel (fbOf [5]) 5 0 ∧ t.draw ≠ false) ∧
    (∃ t, exec (.ldBVx 0) ((regs 9 0 0).setI 0x300#16) = .next t ∧ t.mem.byteAt 0x302 ≠ fresh.mem.byteAt 0x302) :=
  ⟨⟨_, rfl, by decide⟩, ⟨_, rfl, by decide, 0, by decide⟩, ⟨_, rfl, by decide⟩, ⟨_, rfl, by decide⟩,
    ⟨_, rfl, by decide, by decide⟩, ⟨_, rfl, by decide⟩⟩

/-- `VF` written as a flag, and as a destination. -/
theorem witness_VfChangesOnlyAsFlagOrDestination :
    (∃ t, exec (.addVxVy 0 1) (regs 0xFF 0x01 0) = .next t ∧ t.reg 15 ≠ (regs 0xFF 0x01 0).reg 15) ∧
    (∃ t, exec (.ldVxNn 15 7#8) (regs 0 0 0) = .next t ∧ t.reg 15 ≠ (regs 0 0 0).reg 15) :=
  ⟨⟨_, rfl, by decide⟩, ⟨_, rfl, by decide⟩⟩

/-- V-C2: a jump to itself. -/
theorem witness_FinalStateIsLeftUnchangedByEveryStep : (at200 0x12 0x00 fresh).Final :=
  ⟨0x200#12, by decide, by decide⟩

end Sys2Proof.Tests
end

section
/-! PROOFS. The family of 10_state.md: the `reset` event, and `PC` after every instruction. -/

namespace Sys2Proof.Machine

/-! ### The `reset` event (R45, R300) -/

/-- Every register is 0 after reset (R45). -/
@[simp] theorem State.reg_resetEvent (font : Config.FontRom) (s : State) (r : RegName) :
    (s.resetEvent font).reg r = 0#8 := by
  simp [State.reg, State.reset]

/-- No pixel is set after reset (R45). -/
theorem State.pixel_fb_resetEvent (font : Config.FontRom) (s : State) (px py : Nat) :
    Framebuffer.pixel (s.resetEvent font).fb px py = false :=
  Framebuffer.pixel_blank px py

/-- The font table stands at 0x050 upward after reset (R45). -/
theorem read_resetMemory_font (font : Config.FontRom) (j : Fin 80) :
    (resetMemory font).read (0x050 + j.val) = .ok font[j] := by
  have hj := j.isLt
  rw [Memory.read_of_lt _ (by omega), byteAt_resetMemory, if_pos (by omega)]
  simp

/-- Memory outside the font table is cleared by reset (R45). -/
theorem read_resetMemory_outside (font : Config.FontRom) {a : Nat} (hout : a < 0x050 ∨ 0x09F < a) (ha : a < 4096) :
    (resetMemory font).read a = .ok 0#8 := by
  rw [Memory.read_of_lt _ ha, byteAt_resetMemory, if_neg (by omega)]

/-- The `reset` event leaves `KEY` and the model's own draw fields (R45). -/
theorem State.sameBut_resetEvent (font : Config.FontRom) (s : State) :
    s.SameBut (s.resetEvent font) [.regs, .i, .pc, .sp, .stack, .dt, .st, .fb, .draw, .mem] := by
  apply State.sameBut_of_fields <;> simp

/-- Settles O48: the registers, pixels and bytes of memory are read one by one; the other fields are those of
`State.reset`. -/
theorem resetEventGivesTheStatedValues : Obligations.ResetEventGivesTheStatedValues := fun font s =>
  ⟨s.reg_resetEvent font, rfl, rfl, rfl, rfl, rfl, fun px py _ _ => s.pixel_fb_resetEvent font px py, rfl,
    read_resetMemory_font font, fun _ => read_resetMemory_outside font, s.sameBut_resetEvent font⟩

/-! ### `PC` after an instruction (R27) -/

/-- Where a snapshot has a lowest pressed key, one of its sixteen keys is pressed (R214). -/
theorem exists_keyDown_of_lowestKey_eq_some {keys : BitVec 16} {k : Nat} (h : lowestKey keys = some k) :
    ∃ j : Fin 16, keyDown keys j.val = true := by
  obtain ⟨hk, hd, -⟩ := (lowestKey_eq_some_iff keys k).1 h
  exact ⟨⟨k, hk⟩, hd⟩

/-- Where a snapshot has no lowest pressed key, none of its sixteen keys is pressed (R214). -/
theorem not_exists_keyDown_of_lowestKey_eq_none {keys : BitVec 16} (h : lowestKey keys = none) :
    ¬∃ j : Fin 16, keyDown keys j.val = true := by
  rintro ⟨j, hj⟩
  simp [(lowestKey_eq_none_iff keys).1 h j.val j.isLt] at hj

/-- A step event that reports a fault leaves the state as it was (R252). -/
theorem State.stepEvent_fst_of_fault {s : State} {rnd : Byte} {f : Fault} (h : (s.stepEvent rnd).2 = .fault f) :
    (s.stepEvent rnd).1 = s := by
  unfold State.stepEvent at h ⊢
  cases hs : step (s.withDraw rnd) with
  | next t =>
    rw [hs] at h
    cases hw : s.stepWaits <;> simp [hw] at h
  | fault g => rfl
  | refused r => rfl

/-- `nnn + V[0]` does not wrap (R138). -/
theorem toNat_zextAddr_add_zextByte (nnn : Addr) (b : Byte) :
    (zextAddr nnn + zextByte b).toNat = nnn.toNat + b.toNat := by
  have hn := nnn.isLt
  have hb := b.isLt
  rw [BitVec.toNat_add, toNat_zextAddr, toNat_zextByte]
  omega

/-- Every next state of an instruction has the `PC` of the table of R27. -/
theorem pcTable_of_nextOf {i : Instr} {s t : State} (h : NextOf s t i) : pcTable i s t := by
  cases i with
  | ret =>
    obtain ⟨hp, rfl⟩ := h
    intro j hj
    have hj' : s.sp.val - 1 = j.val := by omega
    simp [hj']
  | jp nnn => obtain rfl := h; exact toNat_zextAddr nnn
  | call nnn => obtain ⟨-, rfl⟩ := h; exact toNat_zextAddr nnn
  | jpV0Nnn nnn => obtain rfl := h; exact toNat_zextAddr_add_zextByte nnn (s.reg 0)
  | seVxNn x nn => obtain rfl := h; simp [pcTable]
  | sneVxNn x nn => obtain rfl := h; simp [pcTable]
  | seVxVy x y => obtain rfl := h; simp [pcTable]
  | sneVxVy x y => obtain rfl := h; simp [pcTable]
  | skp x => obtain ⟨-, rfl⟩ := h; exact State.pc_skipIf _ _
  | sknp x => obtain ⟨-, rfl⟩ := h; simp [pcTable]
  | ldVxK x =>
    obtain ⟨hk, rfl⟩ | ⟨k, hk, rfl⟩ := h
    · exact (if_neg (not_exists_keyDown_of_lowestKey_eq_none hk)).symm
    · exact (if_pos (exists_keyDown_of_lowestKey_eq_some hk)).symm
  | drw x y n => obtain ⟨-, -, rfl⟩ := h; rfl
  | ldBVx x => obtain ⟨-, rfl⟩ := h; rfl
  | ldMemVx x => obtain ⟨-, rfl⟩ := h; rfl
  | ldVxMem x => obtain ⟨-, rfl⟩ := h; rfl
  | _ => obtain rfl := h; rfl

/-- Settles O57: by the next states of `exec` per instruction, and because a faulting step event leaves the whole
state. -/
theorem pcAfterEveryInstruction : Obligations.PcAfterEveryInstruction :=
  ⟨fun _ _ _ h => pcTable_of_nextOf (exec_next h), fun _ _ _ h => congrArg State.pc (State.stepEvent_fst_of_fault h)⟩

end Sys2Proof.Machine
end

section
/-! PROOFS. The family of 20_memory.md: what a fetch answers inside and outside memory, and what a step makes of it. -/

namespace Sys2Proof.Machine

/-- A fetch answers a word exactly when `PC` is at most 4094, and then the one of the two bytes at `PC`, big-endian
(R62, R65). -/
theorem State.fetch_eq_ok_iff (s : State) (op : Word) :
    s.fetch = .ok op ↔ s.pc.toNat ≤ 4094 ∧
      op.toNat = (s.mem.byteAt s.pc.toNat).toNat * 256 + (s.mem.byteAt (s.pc.toNat + 1)).toNat := by
  rw [← toNat_wordOfBytes, BitVec.toNat_inj]
  obtain ⟨hp, hf⟩ | ⟨hp, hf⟩ | ⟨hp, hf⟩ := s.fetch_cases
  · simp [hf, hp, eq_comm]
  · exact iff_of_false (by simp [hf]) (by omega)
  · exact iff_of_false (by simp [hf]) (by omega)

/-- A fetch at 4095 reads its second byte outside memory (R62). -/
theorem State.fetch_of_pc_eq_4095 {s : State} (h : s.pc.toNat = 4095) :
    s.fetch = .error (.outOfBoundsAccess (.mem 4096)) := by
  obtain ⟨hp, -⟩ | ⟨-, hf⟩ | ⟨hp, -⟩ := s.fetch_cases
  · omega
  · exact hf
  · omega

/-- A fetch above 4095 reads its first byte outside memory (R62). -/
theorem State.fetch_of_4096_le_pc {s : State} (h : 4096 ≤ s.pc.toNat) :
    s.fetch = .error (.outOfBoundsAccess (.mem s.pc.toNat)) := by
  obtain ⟨hp, -⟩ | ⟨hp, -⟩ | ⟨-, hf⟩ := s.fetch_cases
  · omega
  · omega
  · exact hf

/-- A fault of the fetch is the fault of the step (R97, R255). -/
theorem step_of_fetch_error {s : State} {f : Fault} (h : s.fetch = .error f) : step s = .fault f := by
  simp [step, h, raise]

/-- A step whose fetch and decoding succeed is the decoded instruction's own execution (R97). -/
theorem step_of_decode_ok {s : State} {op : Word} {i : Instr} (hf : s.fetch = .ok op) (hd : decode op = .ok i) :
    step s = exec i s := by
  simp [step, hf, hd]

/-- Settles O5: the fetch succeeds at a `PC` of at most 4094 with the word of its two bytes; its faults above are
the step's. -/
theorem fetchSucceedsExactlyUpTo4094 : Obligations.FetchSucceedsExactlyUpTo4094 := by
  intro s
  refine ⟨⟨?_, fun hp => ?_⟩, fun hp => ?_, fun hp => ?_⟩
  · rintro ⟨op, hf⟩
    exact ((s.fetch_eq_ok_iff op).1 hf).1
  · exact ⟨_, (s.fetch_eq_ok_iff _).2 ⟨hp, toNat_wordOfBytes _ _⟩⟩
  · exact step_of_fetch_error (State.fetch_of_pc_eq_4095 hp)
  · exact step_of_fetch_error (State.fetch_of_4096_le_pc hp)

/-- Settles O6: the word of the two bytes at `PC` is the fetched one, and a step runs what the fetched word decodes
to. -/
theorem stepRunsTheDecodedInstruction : Obligations.StepRunsTheDecodedInstruction :=
  fun s op _ hp hop hd => step_of_decode_ok ((s.fetch_eq_ok_iff op).2 ⟨hp, hop⟩) hd

end Sys2Proof.Machine
end

section
/-! PROOFS. The family of 30_encoding.md: the outcomes of a step event. -/

namespace Sys2Proof.Machine

/-! ### No instruction is refused -/

/-- Every row of the table has its meaning, so `exec` answers a next state or a fault (R96, R98). -/
theorem exec_ne_refused (i : Instr) (s : State) (r : Refusal) : exec i s ≠ .refused r := by
  cases i with
  | ret => obtain ⟨_, e⟩ | ⟨-, e⟩ := execRet_cases s <;> simp [exec, e]
  | call nnn => obtain ⟨_, e⟩ | ⟨-, e⟩ := execCall_cases nnn s <;> simp [exec, e]
  | drw x y n => obtain ⟨-, -, e⟩ | ⟨-, ⟨p, -, e⟩ | ⟨-, e⟩⟩ := execDrw_cases x y n s <;> simp [exec, e]
  | skp x => obtain ⟨-, e⟩ | ⟨-, e⟩ := execSkp_cases x s <;> simp [exec, e]
  | sknp x => obtain ⟨-, e⟩ | ⟨-, e⟩ := execSknp_cases x s <;> simp [exec, e]
  | ldVxK x => obtain ⟨-, e⟩ | ⟨k, -, e⟩ := execLdVxK_cases x s <;> simp [exec, e]
  | ldBVx x => obtain ⟨-, e⟩ | ⟨-, -, e⟩ := s.storeAtI_cases (bcdDigits (s.reg x)) <;> simp [exec, execLdBVx, e]
  | ldMemVx x => obtain ⟨-, e⟩ | ⟨-, -, e⟩ := s.storeAtI_cases (s.regsUpTo x) <;> simp [exec, execLdMemVx, e]
  | ldVxMem x => obtain ⟨-, e⟩ | ⟨-, e⟩ := execLdVxMem_cases x s <;> simp [exec, e]
  | _ => exact nofun

/-- A step answers a next state or a fault (R98). -/
theorem step_ne_refused (s : State) (r : Refusal) : step s ≠ .refused r := by
  obtain ⟨f, -, hs⟩ | ⟨op, e, -, -, hs⟩ | ⟨op, i, -, -, hs⟩ := step_cases s
  · simp [hs]
  · simp [hs]
  · exact hs ▸ exec_ne_refused i s r

/-! ### The instruction the next step runs -/

/-- The current instruction is the one the fetched word decodes to (R97). -/
theorem State.currentInstr_eq_some_iff (s : State) (i : Instr) :
    s.currentInstr = some i ↔ ∃ op, s.fetch = .ok op ∧ decode op = .ok i := by
  unfold State.currentInstr
  cases hf : s.fetch with
  | error f => simp
  | ok op => cases hd : decode op <;> simp [hd]

/-- The current instruction does not depend on the draw. -/
@[simp] theorem State.currentInstr_withDraw (s : State) (rnd : Byte) :
    (s.withDraw rnd).currentInstr = s.currentInstr := rfl

/-- A step runs the current instruction (R97). -/
theorem step_of_currentInstr {s : State} {i : Instr} (h : s.currentInstr = some i) : step s = exec i s := by
  obtain ⟨op, hf, hd⟩ := (s.currentInstr_eq_some_iff i).1 h
  exact step_of_decode_ok hf hd

/-- A step that answers a next state ran the current instruction, which answered it (R97). -/
theorem exec_currentInstr_of_step_next {s t : State} (h : step s = .next t) :
    ∃ i, s.currentInstr = some i ∧ exec i s = .next t := by
  obtain ⟨-, op, i, hf, hd, he⟩ := step_next h
  exact ⟨i, (s.currentInstr_eq_some_iff i).2 ⟨op, hf, hd⟩, he⟩

/-! ### Waiting for a key -/

/-- Only a key wait waits, and only with no key pressed (R98, R214). -/
theorem State.waits_iff (s : State) (i : Instr) :
    s.waits i = true ↔ (∃ x, i = .ldVxK x) ∧ lowestKey s.key = none := by
  cases i <;> simp [State.waits]

/-- The next step waits exactly when it is a key wait with no key pressed (R98, R214). -/
theorem State.stepWaits_iff (s : State) :
    s.stepWaits = true ↔ (∃ x, s.currentInstr = some (.ldVxK x)) ∧ lowestKey s.key = none := by
  rw [State.stepWaits, Option.any_eq_true]
  constructor
  · rintro ⟨i, hi, hw⟩
    obtain ⟨⟨x, rfl⟩, hk⟩ := (s.waits_iff i).1 hw
    exact ⟨⟨x, hi⟩, hk⟩
  · rintro ⟨⟨x, hi⟩, hk⟩
    exact ⟨_, hi, (s.waits_iff _).2 ⟨⟨x, rfl⟩, hk⟩⟩

/-- A key wait with no key pressed answers the state it ran in (R214). -/
theorem execLdVxK_of_lowestKey_eq_none (x : RegName) {s : State} (h : lowestKey s.key = none) :
    execLdVxK x s = .next s := by
  obtain ⟨-, e⟩ | ⟨k, hk, -⟩ := execLdVxK_cases x s
  · exact e
  · simp [h] at hk

/-- A step that waits answers the state it ran in (R98). -/
theorem step_of_stepWaits {s : State} (h : s.stepWaits = true) : step s = .next s := by
  obtain ⟨⟨x, hi⟩, hk⟩ := s.stepWaits_iff.1 h
  exact (step_of_currentInstr hi).trans (execLdVxK_of_lowestKey_eq_none x hk)

/-! ### The `step` event (R98) -/

/-- The draw does not decide whether a step waits. -/
@[simp] theorem State.stepWaits_withDraw (s : State) (rnd : Byte) : (s.withDraw rnd).stepWaits = s.stepWaits := rfl

/-- Between events no draw is supplied, so dropping it leaves the state. -/
theorem State.dropDraw_withDraw_of_rnd_eq_none {s : State} (h : s.rnd = none) (rnd : Byte) :
    (s.withDraw rnd).dropDraw = s := by
  cases s
  cases h
  rfl

/-- A step event that waits leaves the state, between events (R98). -/
theorem State.stepEvent_of_stepWaits {s : State} (hr : s.rnd = none) (hw : s.stepWaits = true) (rnd : Byte) :
    s.stepEvent rnd = (s, .waiting) := by
  have hs : step (s.withDraw rnd) = .next (s.withDraw rnd) :=
    step_of_stepWaits (by simpa using hw)
  simp [State.stepEvent, hs, hw, State.dropDraw_withDraw_of_rnd_eq_none hr]

/-- What a step event can do between events: it waits, it makes the current instruction's writes, or it faults (R98). -/
theorem State.stepEvent_cases {s : State} (hr : s.rnd = none) (rnd : Byte) :
    (s.stepWaits = true ∧ s.stepEvent rnd = (s, .waiting)) ∨
    (s.stepWaits = false ∧
      ∃ i t, s.currentInstr = some i ∧ exec i (s.withDraw rnd) = .next t ∧ s.stepEvent rnd = (t.dropDraw, .done)) ∨
    (s.stepWaits = false ∧ ∃ f, s.stepEvent rnd = (s, .fault f)) := by
  cases hw : s.stepWaits with
  | true => exact .inl ⟨rfl, State.stepEvent_of_stepWaits hr hw rnd⟩
  | false =>
    right
    cases hs : step (s.withDraw rnd) with
    | next t =>
      obtain ⟨i, hi, he⟩ := exec_currentInstr_of_step_next hs
      exact .inl ⟨rfl, i, t, by simpa using hi, he, by simp [State.stepEvent, hs, hw]⟩
    | fault f => exact .inr ⟨rfl, f, (s.stepEvent_eq_fault_iff rnd f).2 hs⟩
    | refused r => exact absurd hs (step_ne_refused _ r)

/-- Settles O34: a step event waits, or makes the current instruction's writes, or faults; which of them waits is
said by `stepWaits`. -/
theorem everyStepIsDoneWaitingOrAFault : Obligations.EveryStepIsDoneWaitingOrAFault := by
  intro s rnd hr
  have hiff := s.stepWaits_iff
  rw [lowestKey_eq_none_iff] at hiff
  obtain ⟨hw, he⟩ | ⟨hw, i, t, hi, hx, he⟩ | ⟨hw, f, he⟩ := State.stepEvent_cases hr rnd <;> rw [he]
  · exact ⟨.inr (.inl rfl), nofun, iff_of_true rfl (hiff.1 hw), fun _ => rfl⟩
  · have hk := hiff.not.1 (by simp [hw])
    exact ⟨.inl rfl, fun _ => ⟨i, t, hi, hx, rfl⟩, iff_of_false nofun hk, fun h => absurd rfl h⟩
  · have hk := hiff.not.1 (by simp [hw])
    exact ⟨.inr (.inr ⟨f, rfl⟩), nofun, iff_of_false nofun hk, fun _ => rfl⟩

end Sys2Proof.Machine
end

section
/-! PROOFS. The family of 40_control_transfer.md: the jumps, and the call stack under `CALL` and `RET`. -/

namespace Sys2Proof.Machine

/-! ### Instructions that write `PC` alone -/

/-- Setting `PC` leaves every other piece of state. -/
theorem State.sameBut_setPc (s : State) (w : Word) : s.SameBut (s.setPc w) [.pc] := by
  apply State.sameBut_of_fields <;> simp

/-- Advancing leaves every piece of state but `PC`. -/
theorem State.sameBut_advance (s : State) : s.SameBut s.advance [.pc] :=
  s.sameBut_setPc (s.pc + 2#16)

/-- A step at 4095 faults on the second byte of its fetch (R62). -/
theorem step_of_pc_eq_4095 {s : State} (h : s.pc.toNat = 4095) : step s = .fault (.outOfBoundsAccess (.mem 4096)) :=
  step_of_fetch_error (State.fetch_of_pc_eq_4095 h)

/-- A step at a `PC` above 4094 faults at its fetch (R62). -/
theorem step_of_4094_lt_pc {s : State} (h : 4094 < s.pc.toNat) :
    ∃ a, step s = .fault (.outOfBoundsAccess (.mem a)) := by
  obtain hp | hp : s.pc.toNat = 4095 ∨ 4096 ≤ s.pc.toNat := by omega
  · exact ⟨_, step_of_pc_eq_4095 hp⟩
  · exact ⟨_, step_of_fetch_error (State.fetch_of_4096_le_pc hp)⟩

/-- Settles O10: the next state is the one advanced. -/
theorem sysOnlyAdvancesPc : Obligations.SysOnlyAdvancesPc := fun s _ =>
  ⟨s.advance, rfl, s.pc_advance, s.sameBut_advance⟩

/-- Settles O11: the next state differs in `PC` alone, and a `PC` of 0xFFF has its second byte outside memory. -/
theorem jpSetsPcToTheAddress : Obligations.JpSetsPcToTheAddress := by
  intro s nnn
  have hpc : (s.setPc (zextAddr nnn)).pc.toNat = nnn.toNat := toNat_zextAddr nnn
  exact ⟨_, rfl, hpc, s.sameBut_setPc _, fun h => step_of_pc_eq_4095 (hpc.trans h)⟩

/-- Settles O12: the sum does not wrap, and a sum above 4094 is a `PC` at which no fetch succeeds. -/
theorem jpV0AddsV0ToTheAddress : Obligations.JpV0AddsV0ToTheAddress := by
  intro s nnn
  have hpc : (s.setPc (zextAddr nnn + zextByte (s.reg 0))).pc.toNat = nnn.toNat + (s.reg 0).toNat :=
    toNat_zextAddr_add_zextByte nnn (s.reg 0)
  exact ⟨_, rfl, hpc, s.sameBut_setPc _, fun h => step_of_4094_lt_pc (hpc ▸ h)⟩

/-! ### `CALL` and `RET` -/

/-- Below 16 entries `CALL` pushes its own address and jumps (R134). -/
theorem execCall_of_sp_lt (nnn : Addr) {s : State} (h : s.sp.val < 16) :
    ∃ t, execCall nnn s = .next t ∧ t.sp.val = s.sp.val + 1 ∧
      (∀ j : Fin 16, t.stack[j] = if j.val = s.sp.val then s.pc else s.stack[j]) ∧
      t.pc = zextAddr nnn ∧ s.SameBut t [.pc, .sp, .stack] := by
  obtain ⟨_, e⟩ | ⟨hfull, -⟩ := execCall_cases nnn s
  · refine ⟨_, e, rfl, fun j => ?_, rfl, ?_⟩
    · simp [Vector.getElem_set, eq_comm]
    · apply State.sameBut_of_fields <;> simp
  · omega

/-- With 16 entries `CALL` faults (R134). -/
theorem execCall_of_sp_eq_16 (nnn : Addr) {s : State} (h : s.sp.val = 16) :
    execCall nnn s = .fault (.stackOverflow s.pc) := by
  obtain ⟨hlt, -⟩ | ⟨-, e⟩ := execCall_cases nnn s
  · omega
  · exact e

/-- `RET` with the entry `j` on top returns two past the address it holds and pops it (R136). -/
theorem execRet_of_sp_eq_succ {s : State} {j : Fin 16} (h : s.sp.val = j.val + 1) :
    ∃ t, execRet s = .next t ∧ t.pc = s.stack[j] + 2#16 ∧ t.sp.val = j.val ∧ s.SameBut t [.pc, .sp] := by
  obtain ⟨_, e⟩ | ⟨hempty, -⟩ := execRet_cases s
  · refine ⟨_, e, by simp [h], by simp [h], ?_⟩
    apply State.sameBut_of_fields <;> simp
  · omega

/-- A `RET` that finds on top what a `CALL` in `s` pushed returns two past that `CALL`, to the depth it was made at
(R140). -/
theorem execRet_answers_call {s u : State} (hd : s.sp.val < 16) (hsp : u.sp.val = s.sp.val + 1)
    (htop : u.stack[s.sp.val] = s.pc) : ∃ w, execRet u = .next w ∧ w.pc = s.pc + 2#16 ∧ w.sp = s.sp := by
  obtain ⟨w, e, hpc, hspw, -⟩ := execRet_of_sp_eq_succ (j := ⟨s.sp.val, hd⟩) hsp
  exact ⟨w, e, hpc.trans (congrArg (· + 2#16) htop), Fin.ext hspw⟩

/-- Settles O13: by the two cases of `CALL`. -/
theorem callPushesItsOwnAddressOrOverflows : Obligations.CallPushesItsOwnAddressOrOverflows := by
  refine fun s nnn => ⟨fun h => ?_, execCall_of_sp_eq_16 nnn⟩
  obtain ⟨t, e, hsp, hstack, hpc, hframe⟩ := execCall_of_sp_lt nnn h
  exact ⟨t, e, hsp, hstack, hpc ▸ toNat_zextAddr nnn, hframe⟩

/-- Settles O15: whatever runs between, the `RET` finds the address that the `CALL` pushed. -/
theorem callThenRetReturnsPastTheCall : Obligations.CallThenRetReturnsPastTheCall := by
  intro s nnn hd
  obtain ⟨t, hcall, hsp, hstack, -⟩ := execCall_of_sp_lt nnn hd
  have hpushed : t.stack[s.sp.val] = s.pc := (hstack ⟨s.sp.val, hd⟩).trans (if_pos rfl)
  refine ⟨fun hi => ⟨t, (step_of_currentInstr hi).trans hcall, fun hr => ?_⟩, t, hcall, fun u hu hentry => ?_⟩
  · rw [step_of_currentInstr hr]
    exact execRet_answers_call hd hsp hpushed
  · exact execRet_answers_call hd (hu ▸ hsp) ((hentry ⟨s.sp.val, hd⟩ rfl).trans hpushed)

end Sys2Proof.Machine
end

section
/-! PROOFS. The family of 41_conditional_skip.md: the skips on a comparison of bytes. -/

namespace Sys2Proof.Machine

/-! ### A skip by what two bytes compare to (R150) -/

/-- A skip leaves every piece of state but `PC`, whether it is taken or not. -/
theorem State.sameBut_skipIf (s : State) (c : Bool) : s.SameBut (s.skipIf c) [.pc] :=
  s.sameBut_setPc (if c then s.pc + 4#16 else s.pc + 2#16)

/-- A skip on equality is taken where the bytes are equal. -/
theorem State.pc_skipIf_beq (s : State) (a b : Byte) :
    (s.skipIf (a == b)).pc = if a = b then s.pc + 4#16 else s.pc + 2#16 := by
  simp only [State.pc_skipIf, beq_iff_eq]

/-- A skip on inequality is taken where the bytes differ, so equal bytes advance by 2. -/
theorem State.pc_skipIf_bne (s : State) (a b : Byte) :
    (s.skipIf (a != b)).pc = if a = b then s.pc + 2#16 else s.pc + 4#16 := by
  simp only [State.pc_skipIf, bne_iff_ne, ite_not]

/-- Settles O16: both answer a skip, on `V[x]` and `nn` being equal or different. -/
theorem immediateSkipsAdvanceByFourOrTwo : Obligations.ImmediateSkipsAdvanceByFourOrTwo := fun s x nn =>
  ⟨⟨s.skipIf (s.reg x == nn), rfl, s.pc_skipIf_beq _ _, s.sameBut_skipIf _⟩,
    ⟨s.skipIf (s.reg x != nn), rfl, s.pc_skipIf_bne _ _, s.sameBut_skipIf _⟩⟩

/-- Settles O17: both answer a skip, on `V[x]` and `V[y]` being equal or different. -/
theorem registerSkipsAdvanceByFourOrTwo : Obligations.RegisterSkipsAdvanceByFourOrTwo := fun s x y =>
  ⟨⟨s.skipIf (s.reg x == s.reg y), rfl, s.pc_skipIf_beq _ _, s.sameBut_skipIf _⟩,
    ⟨s.skipIf (s.reg x != s.reg y), rfl, s.pc_skipIf_bne _ _, s.sameBut_skipIf _⟩⟩

end Sys2Proof.Machine
end

section
/-! PROOFS. The family of 42_load_immediate_random.md: the immediates, the index load and the random byte. -/

namespace Sys2Proof.Machine

/-! ### Instructions that write one register -/

/-- A register write followed by the advance writes that register alone, `VF` like any other. -/
theorem State.writesOnly_advance_setReg (s : State) (x : RegName) (b : Byte) :
    s.WritesOnly (s.setReg x b).advance x b := by
  refine ⟨s.reg_setReg_same x b, fun r hr => s.reg_setReg_of_ne b hr, rfl, ?_⟩
  apply State.sameBut_of_fields <;> simp

/-- The sum of two bytes is the sum of their values modulo 256 (R162). -/
theorem ofNat_toNat_add_toNat_mod (a b : Byte) : BitVec.ofNat 8 ((a.toNat + b.toNat) % 256) = a + b := by
  apply BitVec.eq_of_toNat_eq
  rw [BitVec.toNat_ofNat, BitVec.toNat_add, Nat.mod_mod]

/-- Settles O18: the next state is the one with `nn` written, advanced. -/
theorem ldVxNnWritesTheImmediate : Obligations.LdVxNnWritesTheImmediate := fun s x nn =>
  ⟨(s.setReg x nn).advance, rfl, s.writesOnly_advance_setReg x nn⟩

/-- Settles O19: the sum of the bytes is written, and it is the sum modulo 256. -/
theorem addVxNnWrapsWithoutACarry : Obligations.AddVxNnWrapsWithoutACarry := by
  intro s x nn
  rw [ofNat_toNat_add_toNat_mod]
  exact ⟨(s.setReg x (s.reg x + nn)).advance, rfl, s.writesOnly_advance_setReg x _⟩

/-! ### Instructions that write `I` alone -/

/-- An index write followed by the advance leaves every other piece of state. -/
theorem State.sameBut_advance_setI (s : State) (w : Word) : s.SameBut (s.setI w).advance [.i, .pc] := by
  apply State.sameBut_of_fields <;> simp

/-- Settles O20: `I` takes the zero-extended address, which has the address's value. -/
theorem ldINnnSetsIToTheAddress : Obligations.LdINnnSetsIToTheAddress := fun s nnn =>
  ⟨(s.setI (zextAddr nnn)).advance, rfl, toNat_zextAddr nnn, rfl, s.sameBut_advance_setI _⟩

/-! ### The random byte (R164) -/

/-- Supplying a draw leaves the registers. -/
@[simp] theorem State.reg_withDraw (s : State) (rnd : Byte) (r : RegName) : (s.withDraw rnd).reg r = s.reg r := rfl

/-- A supplied draw is the one that `RND` takes. -/
@[simp] theorem State.currentDraw_withDraw (s : State) (rnd : Byte) : (s.withDraw rnd).currentDraw = rnd := rfl

/-- Using the draw, writing one register and advancing leaves every other piece of state. -/
theorem State.sameBut_advance_setReg_useDraw (s : State) (x : RegName) (b : Byte) :
    s.SameBut (s.useDraw.setReg x b).advance [.regs, .pc, .draws] := by
  apply State.sameBut_of_fields <;> simp

/-- `RND` writes the current draw, masked, to one register, and besides it changes only `PC` and the draw (R164). -/
theorem execRndVxNn_writes (x : RegName) (nn : Byte) (s : State) :
    ∃ t, execRndVxNn x nn s = .next t ∧ t.reg x = s.currentDraw &&& nn ∧ (∀ r, r ≠ x → t.reg r = s.reg r) ∧
      t.pc = s.pc + 2#16 ∧ s.SameBut t [.regs, .pc, .draws] :=
  ⟨_, rfl, s.useDraw.reg_setReg_same x _, fun _ hr => s.useDraw.reg_setReg_of_ne _ hr, rfl,
    s.sameBut_advance_setReg_useDraw x _⟩

/-- A frame that lists the draw holds of the state before the draw was supplied. -/
theorem State.SameBut.of_withDraw {s t : State} {rnd : Byte} {ps : List Part} (h : (s.withDraw rnd).SameBut t ps)
    (hd : Part.draws ∈ ps) : s.SameBut t ps := by
  simpa [State.SameBut, hd] using h

/-- Settles O21: the current draw is the one supplied, and supplying it changes the draw fields alone. -/
theorem rndMasksWhateverDrawComes : Obligations.RndMasksWhateverDrawComes := by
  intro s x nn rnd
  obtain ⟨t, he, hx, hothers, hpc, hframe⟩ := execRndVxNn_writes x nn (s.withDraw rnd)
  rw [State.currentDraw_withDraw] at hx
  exact ⟨t, he, hx, hothers, hpc, hframe.of_withDraw (by simp)⟩

end Sys2Proof.Machine
end

section
/-! PROOFS. The family of 43_alu.md: the unknown words, then the copy, the sum and the shifts with their flags. -/

namespace Sys2Proof.Machine

/-! ### The words that decode to no instruction (R99) -/

/-- The low nibbles of family 0x8 that select no instruction are those besides its eight (R181). -/
theorem nibble_mem_unknown_iff (n : Nibble) :
    n ∈ [0x7#4, 0x8#4, 0x9#4, 0xA#4, 0xB#4, 0xC#4, 0xD#4, 0xF#4] ↔
      n ∉ [0x0#4, 0x1#4, 0x2#4, 0x3#4, 0x4#4, 0x5#4, 0x6#4, 0xE#4] := by
  revert n; decide

/-- The fifteen families that the dispatch names leave 0xF to its default (R94). -/
theorem nibble_eq_15_of_not_mem (n : Nibble)
    (h : n ∉ [0x0#4, 0x1#4, 0x2#4, 0x3#4, 0x4#4, 0x5#4, 0x6#4, 0x7#4, 0x8#4, 0x9#4, 0xA#4, 0xB#4, 0xC#4, 0xD#4,
      0xE#4]) : n = 0xF#4 := by
  revert n; decide

/-- Family 0x8 rejects by the low nibble, with the word (R181). -/
theorem decodeFamily8_eq_error_iff (w : Word) (e : DecodeReject) :
    decodeFamily8 w = .error e ↔
      fieldN w ∈ [0x7#4, 0x8#4, 0x9#4, 0xA#4, 0xB#4, 0xC#4, 0xD#4, 0xF#4] ∧ e = .unknownOpcode w := by
  rw [nibble_mem_unknown_iff]
  unfold decodeFamily8
  split <;> simp_all [eq_comm (a := e)]

/-- Family 0xE rejects by the low byte, with the word (R213). -/
theorem decodeFamilyE_eq_error_iff (w : Word) (e : DecodeReject) :
    decodeFamilyE w = .error e ↔ fieldNn w ∉ [0x9E#8, 0xA1#8] ∧ e = .unknownOpcode w := by
  unfold decodeFamilyE
  split <;> simp_all [eq_comm (a := e)]

/-- Family 0xF rejects by the low byte, with the word (R230). -/
theorem decodeFamilyF_eq_error_iff (w : Word) (e : DecodeReject) :
    decodeFamilyF w = .error e ↔
      fieldNn w ∉ [0x07#8, 0x0A#8, 0x15#8, 0x18#8, 0x1E#8, 0x29#8, 0x33#8, 0x55#8, 0x65#8] ∧
        e = .unknownOpcode w := by
  unfold decodeFamilyF
  split <;> simp_all [eq_comm (a := e)]

/-- Decoding rejects exactly the unknown words, each by its name (R94, R99). -/
theorem decode_eq_error_iff (w : Word) (e : DecodeReject) :
    decode w = .error e ↔ UnknownWord w ∧ e = .unknownOpcode w := by
  unfold decode UnknownWord
  split
  case h_16 =>
    have hF : family w = 0xF#4 := nibble_eq_15_of_not_mem _ (by simp_all)
    simp [hF, decodeFamilyF_eq_error_iff]
  all_goals simp [*, decodeFamily8_eq_error_iff, decodeFamilyE_eq_error_iff]

/-! ### The faults of an instruction (R251) -/

/-- A store at `I` of at least one byte faults exactly when its last address is outside memory (R63, R251). -/
theorem State.storeAtI_eq_fault_iff (s : State) {bs : List Byte} (hb : 0 < bs.length) (f : Fault) :
    s.storeAtI bs = .fault f ↔
      4096 < s.i.toNat + bs.length ∧ f = .outOfBoundsAccess (.mem (max s.i.toNat 4096)) := by
  obtain ⟨hin, e⟩ | ⟨-, hout, e⟩ := s.storeAtI_cases bs
  · exact iff_of_false (by simp [e]) fun ⟨hout, _⟩ => by omega
  · simp [e, hout, eq_comm]

/-- `DRW` faults on a row outside memory, else on its first off-grid bit (R192, R251). -/
theorem execDrw_eq_fault_iff (x y : RegName) (n : Nibble) (s : State) (f : Fault) :
    execDrw x y n s = .fault f ↔ faultTable (.drw x y n) s f := by
  obtain ⟨hn, hm, e⟩ | ⟨hm, ⟨p, hp, e⟩ | ⟨hgrid, e⟩⟩ := execDrw_cases x y n s <;> rw [e]
  · constructor
    · exact fun hf => .inl ⟨by omega, by omega, (Host.Outcome.fault.inj hf).symm⟩
    · rintro (⟨-, -, rfl⟩ | ⟨hin, -⟩)
      · rfl
      · omega
  · constructor
    · intro hf
      obtain ⟨r, c, hrc, rfl⟩ := (find?_drwPixels x y n s p).1 hp
      exact .inr ⟨by omega, r, c, hrc, (Host.Outcome.fault.inj hf).symm⟩
    · rintro (⟨hn, hout, -⟩ | ⟨-, r, c, hrc, rfl⟩)
      · omega
      · have hq := (find?_drwPixels x y n s _).2 ⟨r, c, hrc, rfl⟩
        obtain rfl := Option.some.inj (hp.symm.trans hq)
        rfl
  · refine iff_of_false nofun ?_
    rintro (⟨hn, hout, -⟩ | ⟨-, r, c, hrc, -⟩)
    · omega
    · have hq := (find?_drwPixels x y n s _).2 ⟨r, c, hrc, rfl⟩
      exact absurd (List.find?_some hq) (by simp [hgrid _ (List.mem_of_find?_eq_some hq)])

/-- An instruction faults exactly where the table of R251 says, with the fault it says. -/
theorem exec_eq_fault_iff (i : Instr) (s : State) (f : Fault) : exec i s = .fault f ↔ faultTable i s f := by
  cases i with
  | ret =>
    obtain ⟨hsp, e⟩ | ⟨hsp, e⟩ := execRet_cases s
    · simp [exec, faultTable, e, hsp.ne']
    · simp [exec, faultTable, e, hsp, eq_comm]
  | call nnn =>
    obtain ⟨hsp, e⟩ | ⟨hsp, e⟩ := execCall_cases nnn s
    · simp [exec, faultTable, e, hsp.ne]
    · simp [exec, faultTable, e, hsp, eq_comm]
  | drw x y n => exact execDrw_eq_fault_iff x y n s f
  | skp x =>
    obtain ⟨hk, e⟩ | ⟨hk, e⟩ := execSkp_cases x s
    · simp [exec, faultTable, e, Nat.lt_succ_iff.mp hk]
    · simp [exec, faultTable, e, hk, eq_comm]
  | sknp x =>
    obtain ⟨hk, e⟩ | ⟨hk, e⟩ := execSknp_cases x s
    · simp [exec, faultTable, e, Nat.lt_succ_iff.mp hk]
    · simp [exec, faultTable, e, hk, eq_comm]
  | ldVxK x => obtain ⟨-, e⟩ | ⟨k, -, e⟩ := execLdVxK_cases x s <;> simp [exec, faultTable, e]
  | ldBVx x =>
    refine (s.storeAtI_eq_fault_iff (by simp) f).trans (and_congr_left' ?_)
    rw [length_bcdDigits]
    omega
  | ldMemVx x =>
    refine (s.storeAtI_eq_fault_iff (by simp) f).trans (and_congr_left' ?_)
    rw [State.length_regsUpTo]
    omega
  | ldVxMem x =>
    obtain ⟨h, e⟩ | ⟨h, e⟩ := execLdVxMem_cases x s
    · simp [exec, faultTable, e, h]
    · simp [exec, faultTable, e, h, eq_comm]
  | _ => exact iff_of_false nofun id

/-- No instruction reports an unknown word: that is the decoder's fault alone (R251). -/
theorem exec_ne_fault_unknownOpcode (i : Instr) (s : State) (op pc : Word) :
    exec i s ≠ .fault (.unknownOpcode op pc) := by
  rw [Ne, exec_eq_fault_iff]
  cases i <;> simp [faultTable]

/-- A step reports the word it fetched as unknown exactly when it is one of the unknown words (R97, R251). -/
theorem step_eq_fault_unknownOpcode_iff {s : State} {op : Word} (hf : s.fetch = .ok op) :
    step s = .fault (.unknownOpcode op s.pc) ↔ UnknownWord op := by
  cases hd : decode op with
  | error e => exact iff_of_true (by simp [step, hf, hd, raise]) ((decode_eq_error_iff op e).1 hd).1
  | ok i =>
    rw [step_of_decode_ok hf hd]
    refine iff_of_false (exec_ne_fault_unknownOpcode i s op s.pc) fun hu => ?_
    simp [(decode_eq_error_iff op _).2 ⟨hu, rfl⟩] at hd

/-- Settles O7: the word of the two bytes at `PC` is the fetched one, whatever the draw, and a step reports it exactly
when it is unknown. -/
theorem unknownWordsAreReportedWhole : Obligations.UnknownWordsAreReportedWhole := by
  intro s rnd op hpc hop
  have hf : (s.withDraw rnd).fetch = .ok op := (s.fetch_eq_ok_iff op).2 ⟨hpc, hop⟩
  rw [State.stepEvent_eq_fault_iff]
  exact (step_eq_fault_unknownOpcode_iff hf).symm

/-! ### Instructions that write a result, then a flag (R24, R180) -/

/-- A result and then a flag written, followed by the advance: the flag is what `VF` holds, whatever `x` is. -/
theorem State.writesResultAndFlag_advance_setResultThenFlag (s : State) (x : RegName) (b : Byte) (c : Bool) :
    s.WritesResultAndFlag (s.setResultThenFlag x b c).advance x b c := by
  refine ⟨?_, fun hx => ?_, fun r hx hf => ?_, rfl, ?_⟩
  · simp [State.reg_setResultThenFlag, regVF, flagByte]
  · simp [State.reg_setResultThenFlag, regVF, hx]
  · simp [State.reg_setResultThenFlag, regVF, hx, hf]
  · apply State.sameBut_of_fields <;> simp

/-- Half of a byte is the byte shifted right by one (R176). -/
theorem ofNat_toNat_div_two (b : Byte) : BitVec.ofNat 8 (b.toNat / 2) = b >>> 1 := by
  apply BitVec.eq_of_toNat_eq
  have := b.isLt
  rw [BitVec.toNat_ushiftRight, Nat.shiftRight_one, BitVec.toNat_ofNat]
  omega

/-- The bit shifted out on the right is 1 exactly for an odd byte (R176). -/
theorem decide_toNat_mod_two_eq_one (b : Byte) : decide (b.toNat % 2 = 1) = lowBit b := by
  simp [lowBit, BitVec.getLsbD]

/-- Twice a byte modulo 256 is the byte shifted left by one (R177). -/
theorem ofNat_toNat_mul_two_mod (b : Byte) : BitVec.ofNat 8 (b.toNat * 2 % 256) = b <<< 1 := by
  apply BitVec.eq_of_toNat_eq
  rw [BitVec.toNat_shiftLeft, Nat.shiftLeft_eq, BitVec.toNat_ofNat, Nat.mod_mod]

/-- The bit shifted out on the left is 1 exactly for a byte of 128 or more (R177). -/
theorem decide_128_le_toNat (b : Byte) : decide (128 ≤ b.toNat) = highBit b :=
  (BitVec.msb_eq_decide b).symm

/-- Settles O23: the next state is the one with `V[y]` written, advanced; `VF` is a register like any other. -/
theorem ldVxVyCopiesTheRegister : Obligations.LdVxVyCopiesTheRegister := fun s x y =>
  ⟨(s.setReg x (s.reg y)).advance, rfl, s.writesOnly_advance_setReg x (s.reg y)⟩

/-- Settles O25: the sum of the bytes is the sum modulo 256, and the carry is written after it. -/
theorem addVxVyWritesSumThenCarry : Obligations.AddVxVyWritesSumThenCarry := by
  intro s x y
  rw [ofNat_toNat_add_toNat_mod]
  exact ⟨_, rfl, s.writesResultAndFlag_advance_setResultThenFlag x _ (carryOut (s.reg x) (s.reg y))⟩

/-- Settles O27: the byte shifted right is its half, and the bit shifted out is written after it. -/
theorem shrVxWritesHalfThenOldBitZero : Obligations.ShrVxWritesHalfThenOldBitZero := by
  intro s x
  rw [ofNat_toNat_div_two, decide_toNat_mod_two_eq_one]
  exact ⟨_, rfl, s.writesResultAndFlag_advance_setResultThenFlag x _ _⟩

/-- Settles O28: the byte shifted left is its double modulo 256, and the bit shifted out is written after it. -/
theorem shlVxWritesDoubleThenOldBitSeven : Obligations.ShlVxWritesDoubleThenOldBitSeven := by
  intro s x
  rw [ofNat_toNat_mul_two_mod, decide_128_le_toNat]
  exact ⟨_, rfl, s.writesResultAndFlag_advance_setResultThenFlag x _ _⟩

end Sys2Proof.Machine
end

section
/-! PROOFS. The family of 44_display.md: the blank screen, and the sprite that a `DRW` toggles. -/

namespace Sys2Proof.Machine

/-! ### A new framebuffer (R33, R190) -/

/-- A new framebuffer followed by the advance leaves every piece of state but the redraw flag and `PC`. -/
theorem State.sameBut_advance_setFb (s : State) (fb : Framebuffer) :
    s.SameBut (s.setFb fb).advance [.fb, .draw, .pc] := by
  apply State.sameBut_of_fields <;> simp

/-- Settles O29: the next state is the one with the blank framebuffer, which has no pixel set. -/
theorem clsBlanksTheScreenAndRaisesRedraw : Obligations.ClsBlanksTheScreenAndRaisesRedraw := fun s =>
  ⟨(s.setFb Framebuffer.blank).advance, rfl, fun px py _ _ => Framebuffer.pixel_blank px py, rfl, rfl,
    s.sameBut_advance_setFb _⟩

/-! ### The sprite of a `DRW` (R191, R197) -/

/-- The pixels of a sprite are on the grid exactly when each of its set bits is (R193). -/
theorem drwPixels_onGrid_iff (x y : RegName) (n : Nibble) (s : State) :
    (∀ p ∈ drwPixels x y n s, offGrid p = false) ↔
      ∀ r c, r < n.toNat → c < 8 → s.spriteBit r c = true → (s.reg x).toNat + c ≤ 63 ∧ (s.reg y).toNat + r ≤ 31 := by
  simp only [mem_drwPixels, offGrid_eq_false_iff, Nat.lt_succ_iff]
  constructor
  · exact fun h r c hr hc hbit => h _ ⟨r, c, hr, hc, hbit, rfl⟩
  · rintro h p ⟨r, c, hr, hc, hbit, rfl⟩
    exact h r c hr hc hbit

/-- Flipping the pixels of a sprite on the grid changes exactly the covered ones (R192). -/
theorem pixel_blit_drwPixels_ne_iff {x y : RegName} {n : Nibble} {s : State}
    (hgrid : ∀ p ∈ drwPixels x y n s, offGrid p = false) (fb : Framebuffer) (px py : Nat) :
    Framebuffer.pixel (blit fb (drwPixels x y n s)).1 px py ≠ Framebuffer.pixel fb px py ↔
      s.Covers (s.reg x).toNat (s.reg y).toNat n.toNat px py := by
  rw [pixel_blit _ fb (nodup_drwPixels x y n s) hgrid, ← mem_drwPixels_iff_covers]
  cases Framebuffer.pixel fb px py <;> simp

/-- Flipping the pixels of a sprite on the grid hits exactly when a covered one was 1 (R194). -/
theorem hit_blit_drwPixels_iff {x y : RegName} {n : Nibble} {s : State}
    (hgrid : ∀ p ∈ drwPixels x y n s, offGrid p = false) (fb : Framebuffer) :
    (blit fb (drwPixels x y n s)).2 = true ↔
      ∃ px py, s.Covers (s.reg x).toNat (s.reg y).toNat n.toNat px py ∧ Framebuffer.pixel fb px py = true := by
  rw [hit_blit _ fb (nodup_drwPixels x y n s) hgrid, Prod.exists]
  simp only [mem_drwPixels_iff_covers]

/-! ### A completed `DRW` (R192, R194) -/

/-- The state after a `DRW` that completes: the sprite's pixels flipped, the collision in `VF`, `PC` advanced. -/
def drwNext (x y : RegName) (n : Nibble) (s : State) : State :=
  ((s.setFb (blit s.fb (drwPixels x y n s)).1).setFlag (blit s.fb (drwPixels x y n s)).2).advance

/-- A `DRW` with its rows inside memory and its set bits on the grid completes (R192). -/
theorem execDrw_of_onGrid {x y : RegName} {n : Nibble} {s : State} (hrows : n.toNat = 0 ∨ s.i.toNat + n.toNat ≤ 4096)
    (hgrid : ∀ p ∈ drwPixels x y n s, offGrid p = false) : execDrw x y n s = .next (drwNext x y n s) := by
  obtain ⟨hn, hout, -⟩ | ⟨-, ⟨p, hp, -⟩ | ⟨-, e⟩⟩ := execDrw_cases x y n s
  · omega
  · exact absurd (List.find?_some hp) (by simp [hgrid p (List.mem_of_find?_eq_some hp)])
  · exact e

/-- A completed `DRW` writes the collision flag to `VF` (R194). -/
theorem reg_15_drwNext (x y : RegName) (n : Nibble) (s : State) :
    (drwNext x y n s).reg 15 = flagByte (blit s.fb (drwPixels x y n s)).2 := by
  simp [drwNext, State.reg_setFlag, regVF]

/-- A completed `DRW` writes no register but `VF` (R194). -/
theorem reg_drwNext_of_ne (x y : RegName) (n : Nibble) (s : State) {r : RegName} (hr : r ≠ 15) :
    (drwNext x y n s).reg r = s.reg r := by
  simp [drwNext, State.reg_setFlag, regVF, hr]

/-- A completed `DRW` leaves every piece of state but the registers, the pixels, the redraw flag and `PC` (R192). -/
theorem State.sameBut_drwNext (x y : RegName) (n : Nibble) (s : State) :
    s.SameBut (drwNext x y n s) [.regs, .fb, .draw, .pc] := by
  apply State.sameBut_of_fields <;> simp [drwNext]

/-- `VF` is 1 after a completed `DRW` exactly when a covered pixel was 1 (R194). -/
theorem reg_15_drwNext_eq_one_iff {x y : RegName} {n : Nibble} {s : State}
    (hgrid : ∀ p ∈ drwPixels x y n s, offGrid p = false) :
    (drwNext x y n s).reg 15 = 1#8 ↔
      ∃ px py, s.Covers (s.reg x).toNat (s.reg y).toNat n.toNat px py ∧ Framebuffer.pixel s.fb px py = true := by
  rw [reg_15_drwNext, ← hit_blit_drwPixels_iff hgrid]
  cases (blit s.fb (drwPixels x y n s)).2 <;> simp [flagByte]

/-- `VF` is 0 after a completed `DRW` exactly when every covered pixel was 0 (R194). -/
theorem reg_15_drwNext_eq_zero_iff {x y : RegName} {n : Nibble} {s : State}
    (hgrid : ∀ p ∈ drwPixels x y n s, offGrid p = false) :
    (drwNext x y n s).reg 15 = 0#8 ↔
      ∀ px py, s.Covers (s.reg x).toNat (s.reg y).toNat n.toNat px py → Framebuffer.pixel s.fb px py = false := by
  have hbit : (drwNext x y n s).reg 15 = 0#8 ↔ ¬(drwNext x y n s).reg 15 = 1#8 := by
    rw [reg_15_drwNext]
    cases (blit s.fb (drwPixels x y n s)).2 <;> simp [flagByte]
  simp only [hbit, reg_15_drwNext_eq_one_iff hgrid, not_exists, not_and, Bool.not_eq_true]

/-- Settles O30: the fault clauses are those of the table of R251; a `DRW` that meets neither completes, and flips
exactly the covered pixels. -/
theorem drwTogglesTheSpriteOrFaultsWhole : Obligations.DrwTogglesTheSpriteOrFaultsWhole := by
  intro s x y n
  refine ⟨fun hn hout => ?_, fun hin r c hfirst => ?_, fun hin hbits => ?_⟩
  · exact (execDrw_eq_fault_iff x y n s _).2 (.inl ⟨hn, hout, rfl⟩)
  · exact (execDrw_eq_fault_iff x y n s _).2 (.inr ⟨hin, r, c, hfirst, rfl⟩)
  · have hgrid := (drwPixels_onGrid_iff x y n s).2 hbits
    exact ⟨drwNext x y n s, execDrw_of_onGrid (by omega) hgrid,
      fun px py _ _ => pixel_blit_drwPixels_ne_iff hgrid s.fb px py,
      (reg_15_drwNext_eq_one_iff hgrid).2, (reg_15_drwNext_eq_zero_iff hgrid).2, rfl,
      fun r hr => reg_drwNext_of_ne x y n s hr, rfl, s.sameBut_drwNext x y n⟩

end Sys2Proof.Machine
end

section
/-! PROOFS. The family of 45_keypad.md: the skips on the level of a key, and the wait for a key. -/

namespace Sys2Proof.Machine

/-! ### A skip on the level of a key (R211, R212) -/

/-- A skip on a negated condition advances by 2 where the condition holds. -/
theorem State.pc_skipIf_not (s : State) (c : Bool) :
    (s.skipIf (!c)).pc = if c then s.pc + 2#16 else s.pc + 4#16 := by
  cases c <;> simp

/-- With a key's index in `V[x]`, `SKP` skips where that key is pressed (R211). -/
theorem execSkp_of_reg_le_15 {x : RegName} {s : State} (h : (s.reg x).toNat ≤ 15) :
    execSkp x s = .next (s.skipIf (keyDown s.key (s.reg x).toNat)) := by
  obtain ⟨-, e⟩ | ⟨hout, -⟩ := execSkp_cases x s
  · exact e
  · omega

/-- With a key's index in `V[x]`, `SKNP` skips where that key is not pressed (R212). -/
theorem execSknp_of_reg_le_15 {x : RegName} {s : State} (h : (s.reg x).toNat ≤ 15) :
    execSknp x s = .next (s.skipIf (!keyDown s.key (s.reg x).toNat)) := by
  obtain ⟨-, e⟩ | ⟨hout, -⟩ := execSknp_cases x s
  · exact e
  · omega

/-- Settles O32: up to 15 both answer a skip, on the level of the key and on its negation; above 15 their faults are
those of the table of R251. -/
theorem keySkipsReadTheLevelOrFault : Obligations.KeySkipsReadTheLevelOrFault := fun s x =>
  ⟨fun h => ⟨⟨_, execSkp_of_reg_le_15 h, s.pc_skipIf _, s.sameBut_skipIf _⟩,
      ⟨_, execSknp_of_reg_le_15 h, s.pc_skipIf_not _, s.sameBut_skipIf _⟩⟩,
    fun h => ⟨(exec_eq_fault_iff (.skp x) s _).2 ⟨h, rfl⟩, (exec_eq_fault_iff (.sknp x) s _).2 ⟨h, rfl⟩⟩⟩

/-! ### The wait for a key (R214) -/

/-- A key wait with `k` the lowest key pressed writes its index to `V[x]` and advances (R214). -/
theorem execLdVxK_of_lowestKey_eq_some (x : RegName) {s : State} {k : Nat} (h : lowestKey s.key = some k) :
    execLdVxK x s = .next (s.setReg x (BitVec.ofNat 8 k)).advance := by
  obtain ⟨hnone, -⟩ | ⟨j, hj, e⟩ := execLdVxK_cases x s
  · simp [h] at hnone
  · obtain rfl := Option.some.inj (h.symm.trans hj)
    exact e

/-- A step does not wait where a key is pressed (R98, R214). -/
theorem State.stepWaits_eq_false_of_lowestKey_eq_some {s : State} {k : Nat} (h : lowestKey s.key = some k) :
    s.stepWaits = false := by
  rw [Bool.eq_false_iff, Ne, State.stepWaits_iff]
  simp [h]

/-- A step event that answers a next state and does not wait is `DONE` (R98). -/
theorem State.stepEvent_of_step_next {s t : State} {rnd : Byte} (h : step (s.withDraw rnd) = .next t)
    (hw : s.stepWaits = false) : s.stepEvent rnd = (t.dropDraw, .done) := by
  simp [State.stepEvent, h, hw]

/-- A step event that runs a key wait with a key pressed is `DONE`, whatever the draw (R214). -/
theorem State.stepEvent_snd_of_keyWait_of_lowestKey_eq_some {s : State} {x : RegName} {k : Nat}
    (hi : s.currentInstr = some (.ldVxK x)) (h : lowestKey s.key = some k) (rnd : Byte) :
    (s.stepEvent rnd).2 = .done := by
  have hs : step (s.withDraw rnd) = .next ((s.withDraw rnd).setReg x (BitVec.ofNat 8 k)).advance :=
    (step_of_currentInstr (s := s.withDraw rnd) hi).trans (execLdVxK_of_lowestKey_eq_some x h)
  rw [State.stepEvent_of_step_next hs (State.stepWaits_eq_false_of_lowestKey_eq_some h)]

/-- Settles O33: with no key pressed there is no lowest key, so the step waits; else the key named is the lowest, whose
index is written. -/
theorem keyWaitHoldsOrTakesTheLowestKey : Obligations.KeyWaitHoldsOrTakesTheLowestKey := by
  refine fun s x => ⟨fun hup => ?_, fun k hk hdown hmin => ?_⟩
  · have hnone : lowestKey s.key = none := (lowestKey_eq_none_iff s.key).2 hup
    exact ⟨execLdVxK_of_lowestKey_eq_none x hnone,
      fun hi hr => State.stepEvent_of_stepWaits hr (s.stepWaits_iff.2 ⟨⟨x, hi⟩, hnone⟩)⟩
  · have hsome : lowestKey s.key = some k := (lowestKey_eq_some_iff s.key k).2 ⟨hk, hdown, hmin⟩
    exact ⟨⟨_, execLdVxK_of_lowestKey_eq_some x hsome, s.writesOnly_advance_setReg x _⟩,
      fun hi => State.stepEvent_snd_of_keyWait_of_lowestKey_eq_some hi hsome⟩

end Sys2Proof.Machine
end

section
/-! PROOFS. The family of 46_timer_index_memory.md: the timers, the index, and the transfers to and from memory. -/

namespace Sys2Proof.Machine

/-! ### The timers (R221, R222, R223) -/

/-- A delay timer write followed by the advance leaves every other piece of state. -/
theorem State.sameBut_advance_setDt (s : State) (b : Byte) : s.SameBut (s.setDt b).advance [.dt, .pc] := by
  apply State.sameBut_of_fields <;> simp

/-- A sound timer write followed by the advance leaves every other piece of state. -/
theorem State.sameBut_advance_setSt (s : State) (b : Byte) : s.SameBut (s.setSt b).advance [.st, .pc] := by
  apply State.sameBut_of_fields <;> simp

/-- Settles O35: the next state is the one with `DT` written to `V[x]`, advanced. -/
theorem ldVxDtReadsTheDelayTimer : Obligations.LdVxDtReadsTheDelayTimer := fun s x =>
  ⟨(s.setReg x s.dt).advance, rfl, s.writesOnly_advance_setReg x s.dt⟩

/-- Settles O36: each next state is the one with `V[x]` written to the timer, advanced. -/
theorem timerLoadsWriteOneTimer : Obligations.TimerLoadsWriteOneTimer := fun s x =>
  ⟨⟨(s.setDt (s.reg x)).advance, rfl, rfl, rfl, s.sameBut_advance_setDt _⟩,
    ⟨(s.setSt (s.reg x)).advance, rfl, rfl, rfl, s.sameBut_advance_setSt _⟩⟩

/-! ### The index (R224, R225) -/

/-- A word plus a zero-extended byte is the sum of their values modulo 65536 (R224). -/
theorem toNat_add_zextByte (w : Word) (b : Byte) : (w + zextByte b).toNat = (w.toNat + b.toNat) % 65536 := by
  rw [BitVec.toNat_add, toNat_zextByte]

/-- Settles O37: `I` takes the sum modulo 65536, and no register is written. -/
theorem addIVxWrapsWithoutAFlag : Obligations.AddIVxWrapsWithoutAFlag := fun s x =>
  ⟨(s.setI (s.i + zextByte (s.reg x))).advance, rfl, toNat_add_zextByte s.i (s.reg x), rfl, s.sameBut_advance_setI _⟩

/-- Settles O38: `I` takes the address of the glyph, which the formula gives without wrapping. -/
theorem ldFVxPointsIAtTheGlyph : Obligations.LdFVxPointsIAtTheGlyph := fun s x =>
  ⟨(s.setI (glyphAddress (s.reg x))).advance, rfl, toNat_glyphAddress (s.reg x), rfl, s.sameBut_advance_setI _⟩

/-! ### A store at `I` (R226, R227) -/

/-- A byte of a run written inside memory is read back at its place. -/
theorem Memory.read_putAll_of_getElem? (m : Memory) {a k : Nat} {bs : List Byte} {b : Byte} (hb : bs[k]? = some b)
    (hin : a + bs.length ≤ 4096) : (m.putAll a bs).read (a + k) = .ok b := by
  have hk : k < bs.length := (List.getElem?_eq_some_iff.1 hb).1
  rw [Memory.read_putAll, if_pos (by omega), Nat.add_sub_cancel_left, List.getD_eq_getElem?_getD, hb]
  rfl

/-- Outside the run written, every address reads as before. -/
theorem Memory.read_putAll_outside (m : Memory) {a c : Nat} {bs : List Byte} (hout : c < a ∨ a + bs.length ≤ c) :
    (m.putAll a bs).read c = m.read c := by
  rw [Memory.read_putAll, if_neg (by omega)]

/-- New memory contents followed by the advance leave every other piece of state. -/
theorem State.sameBut_advance_setMem (s : State) (m : Memory) : s.SameBut (s.setMem m).advance [.mem, .pc] := by
  apply State.sameBut_of_fields <;> simp

/-- A store at `I` inside memory puts its bytes at `I` upward and changes no other byte, and besides memory only `PC`
(R63, R226, R227). -/
theorem State.storeAtI_writes (s : State) {bs : List Byte} (hin : s.i.toNat + bs.length ≤ 4096) :
    ∃ t, s.storeAtI bs = .next t ∧ (∀ k b, bs[k]? = some b → t.mem.read (s.i.toNat + k) = .ok b) ∧
      (∀ a, a < s.i.toNat ∨ s.i.toNat + bs.length ≤ a → t.mem.read a = s.mem.read a) ∧
      t.pc = s.pc + 2#16 ∧ s.SameBut t [.mem, .pc] := by
  obtain ⟨-, e⟩ | ⟨-, hout, -⟩ := s.storeAtI_cases bs
  · exact ⟨_, e, fun _ _ hb => s.mem.read_putAll_of_getElem? hb hin, fun _ ha => s.mem.read_putAll_outside ha, rfl,
      s.sameBut_advance_setMem _⟩
  · omega

/-- Settles O39: inside memory it is a store of the three digits; outside, its fault is the one of the table of R251. -/
theorem ldBVxStoresThreeDigitsOrFaults : Obligations.LdBVxStoresThreeDigitsOrFaults := by
  refine fun s x => ⟨fun hin => ?_, fun hout => (exec_eq_fault_iff (.ldBVx x) s _).2 ⟨hout, rfl⟩⟩
  have hlen : s.i.toNat + (bcdDigits (s.reg x)).length ≤ 4096 := by rw [length_bcdDigits]; omega
  obtain ⟨t, e, hdigit, hrest, hpc, hframe⟩ := s.storeAtI_writes hlen
  exact ⟨t, e, hdigit 0 _ rfl, hdigit 1 _ rfl, hdigit 2 _ rfl,
    fun a ha => hrest a (by rw [length_bcdDigits]; omega), hpc, hframe⟩

/-- The registers up to `x`, listed in order, hold each one at its own number (R227). -/
theorem State.getElem?_regsUpTo_of_le (s : State) {x r : RegName} (h : r.val ≤ x.val) :
    (s.regsUpTo x)[r.val]? = some (s.reg r) := by
  rw [State.getElem?_regsUpTo, dif_pos (by omega)]

/-- Settles O40: inside memory it is a store of the registers; outside, its fault is the one of the table of R251. -/
theorem ldMemVxStoresTheRegistersOrFaults : Obligations.LdMemVxStoresTheRegistersOrFaults := by
  refine fun s x => ⟨fun hin => ?_, fun hout => (exec_eq_fault_iff (.ldMemVx x) s _).2 ⟨hout, rfl⟩⟩
  have hlen : s.i.toNat + (s.regsUpTo x).length ≤ 4096 := by rw [State.length_regsUpTo]; omega
  obtain ⟨t, e, hreg, hrest, hpc, hframe⟩ := s.storeAtI_writes hlen
  exact ⟨t, e, fun r hr => hreg r.val _ (s.getElem?_regsUpTo_of_le hr),
    fun a ha => hrest a (by rw [State.length_regsUpTo]; omega), hpc, hframe⟩

/-! ### A load from `I` (R228, R229) -/

/-- A bulk load of `n` bytes writes to each register below `n` the byte at its own offset (R228). -/
theorem State.reg_setRegs_bytesAt_of_lt (s : State) (a : Nat) {n : Nat} {r : RegName} (h : r.val < n) :
    (s.setRegs (s.mem.bytesAt a n)).reg r = s.mem.byteAt (a + r.val) := by
  rw [State.reg_setRegs, Memory.getD_bytesAt _ _ h]

/-- A bulk load of `n` bytes keeps the registers from `n` upward (R228). -/
theorem State.reg_setRegs_bytesAt_of_le (s : State) (a : Nat) {n : Nat} {r : RegName} (h : n ≤ r.val) :
    (s.setRegs (s.mem.bytesAt a n)).reg r = s.reg r := by
  rw [State.reg_setRegs, Memory.getD_bytesAt_of_le _ _ h]

/-- `I` advanced past a run of bytes inside memory does not wrap (R228). -/
theorem toNat_add_ofNat_of_le {w : Word} {n : Nat} (h : w.toNat + n ≤ 4096) :
    (w + BitVec.ofNat 16 n).toNat = w.toNat + n := by
  rw [BitVec.toNat_add, BitVec.toNat_ofNat]
  omega

/-- A bulk load, the index and the advance leave every other piece of state. -/
theorem State.sameBut_advance_setI_setRegs (s : State) (bs : List Byte) (w : Word) :
    s.SameBut ((s.setRegs bs).setI w).advance [.regs, .i, .pc] := by
  apply State.sameBut_of_fields <;> simp

/-- Settles O41: inside memory each register up to `x` takes the byte at its own offset; outside, its fault is the one
of the table of R251. -/
theorem ldVxMemLoadsTheRegistersOrFaults : Obligations.LdVxMemLoadsTheRegistersOrFaults := by
  refine fun s x => ⟨fun hin => ?_, fun hout => (exec_eq_fault_iff (.ldVxMem x) s _).2 ⟨hout, rfl⟩⟩
  obtain ⟨-, e⟩ | ⟨hout, -⟩ := execLdVxMem_cases x s
  · refine ⟨_, e, fun r hr => ?_, fun r hr => ?_, toNat_add_ofNat_of_le (by omega), rfl,
      s.sameBut_advance_setI_setRegs _ _⟩
    · rw [Memory.read_of_lt _ (by omega), State.reg_advance, State.reg_setI,
        State.reg_setRegs_bytesAt_of_lt _ _ (by omega)]
    · exact s.reg_setRegs_bytesAt_of_le _ hr
  · omega

/-- Settles O42: the load reads, at the offset of each register, the byte that the store put there. -/
theorem storeThenLoadReadsBackTheRegisters : Obligations.StoreThenLoadReadsBackTheRegisters := by
  intro s x hin
  obtain ⟨t, hstore, hstored, -, -, hframe⟩ := (ldMemVxStoresTheRegistersOrFaults s x).1 hin
  obtain ⟨-, hi, -⟩ := hframe
  have hti : t.i = s.i := hi (by decide)
  refine ⟨t, hstore, hti, fun u hui hmem => ?_⟩
  rw [hti] at hui
  obtain ⟨w, hload, hloaded, -, hwi, -⟩ := (ldVxMemLoadsTheRegistersOrFaults u x).1 (hui ▸ hin)
  rw [hui] at hloaded hwi
  refine ⟨w, hload, fun r hr => ?_, hwi⟩
  have hkept : u.mem.read (s.i.toNat + r.val) = .ok (s.reg r) := (hmem _).trans (hstored r hr)
  exact Except.ok.inj ((hloaded r hr).symm.trans hkept)

end Sys2Proof.Machine
end

section
/-! PROOFS. The family of 60_exceptions.md: where a step faults and what is left after it, and the events that are
not a step. -/

namespace Sys2Proof.Machine

/-! ### Where a step faults (R251, R255) -/

/-- A fetched word that decodes to no instruction is the fault of the step, with the word and where it stands (R97). -/
theorem step_of_decode_error {s : State} {op : Word} {e : DecodeReject} (hf : s.fetch = .ok op)
    (hd : decode op = .error e) : step s = .fault (.unknownOpcode op s.pc) := by
  simp [step, hf, hd, raise]

/-- After a successful fetch a step faults on an unknown word, else as the table of R251 says of the instruction. -/
theorem step_eq_fault_iff_of_fetch_ok {s : State} {op : Word} (hf : s.fetch = .ok op) (f : Fault) :
    step s = .fault f ↔
      (UnknownWord op ∧ f = .unknownOpcode op s.pc) ∨ ∃ i, decode op = .ok i ∧ faultTable i s f := by
  cases hd : decode op with
  | error e =>
    have hunknown : UnknownWord op := ((decode_eq_error_iff op e).1 hd).1
    simp [step_of_decode_error hf hd, hunknown, eq_comm]
  | ok i =>
    have hknown : ¬UnknownWord op := fun hu => by simp [(decode_eq_error_iff op _).2 ⟨hu, rfl⟩] at hd
    simp [step_of_decode_ok hf hd, exec_eq_fault_iff, hknown]

/-- Settles O8: at most 4094 the two bytes at `PC` are the only word that the last clause can speak of; above, the
step faults at its fetch. -/
theorem stepFaultsExactlyAsTheTableSays : Obligations.StepFaultsExactlyAsTheTableSays := by
  intro s f
  obtain hp | hp | hp : s.pc.toNat ≤ 4094 ∨ s.pc.toNat = 4095 ∨ 4096 ≤ s.pc.toNat := by omega
  · obtain ⟨op, hf⟩ := (fetchSucceedsExactlyUpTo4094 s).1.2 hp
    have hop := ((s.fetch_eq_ok_iff op).1 hf).2
    rw [step_eq_fault_iff_of_fetch_ok hf]
    constructor
    · exact fun h => .inr (.inr ⟨hp, op, hop, h⟩)
    · rintro (⟨h, -⟩ | ⟨h, -⟩ | ⟨-, op', hop', h⟩)
      · omega
      · omega
      · obtain rfl : op' = op := BitVec.eq_of_toNat_eq (hop'.trans hop.symm)
        exact h
  · simp [step_of_pc_eq_4095 hp, hp, eq_comm]
  · have h4095 : s.pc.toNat ≠ 4095 := by omega
    have h4094 : ¬s.pc.toNat ≤ 4094 := by omega
    simp [step_of_fetch_error (State.fetch_of_4096_le_pc hp), hp, h4095, h4094, eq_comm]

/-! ### What is left after a fault (R252, R253) -/

/-- Whether a step faults, and with what, does not depend on the draw: nothing in R251 speaks of it. -/
theorem step_withDraw_eq_fault_iff (s : State) (rnd : Byte) (f : Fault) :
    step (s.withDraw rnd) = .fault f ↔ step s = .fault f :=
  (stepFaultsExactlyAsTheTableSays (s.withDraw rnd) f).trans (stepFaultsExactlyAsTheTableSays s f).symm

/-- Settles O51: a faulting step event leaves the state, and no draw changes the fault of a step from there. -/
theorem faultingStepChangesNothingAndRepeats : Obligations.FaultingStepChangesNothingAndRepeats := by
  intro s rnd f h
  have hleft : (s.stepEvent rnd).1 = s := State.stepEvent_fst_of_fault h
  have hfault : step (s.withDraw rnd) = .fault f := (s.stepEvent_eq_fault_iff rnd f).1 (Prod.ext hleft h)
  refine ⟨hleft, fun rnd' => (s.stepEvent_eq_fault_iff rnd' f).2 ?_⟩
  exact (step_withDraw_eq_fault_iff s rnd' f).2 ((step_withDraw_eq_fault_iff s rnd f).1 hfault)

/-! ### The timers and the keys (R270, R276) -/

/-- Settles O44: both timers take one `countDown`, and the pulse compares the sound timer with 1. -/
theorem tickCountsBothTimersDown : Obligations.TickCountsBothTimersDown := by
  intro s
  have htone : s.tick.2 = true ↔ s.st.toNat = 1 := by simp [State.tick, ← BitVec.toNat_inj]
  refine ⟨toNat_countDown s.dt, toNat_countDown s.st, htone, ?_⟩
  apply State.sameBut_of_fields <;> simp [State.tick]

/-- Settles O46: by what `keyDown` reads after a `key_set`, and field by field for the rest. -/
theorem keySetWritesOneKeyFlag : Obligations.KeySetWritesOneKeyFlag := by
  refine fun s k v => ⟨fun j => s.keyDown_keySet k j v, ?_⟩
  apply State.sameBut_of_fields <;> simp

/-! ### The redraw flag (R33, R279) -/

/-- A `CLS` or `DRW` that completes raises the redraw flag (R33). -/
theorem draw_eq_true_of_nextOf {i : Instr} {s t : State} (h : NextOf s t i)
    (hi : i = .cls ∨ ∃ x y n, i = .drw x y n) : t.draw = true := by
  obtain rfl | ⟨x, y, n, rfl⟩ := hi
  · obtain rfl := h
    rfl
  · obtain ⟨-, -, rfl⟩ := h
    rfl

/-- Every other instruction leaves the redraw flag (R33). -/
theorem draw_eq_of_nextOf {i : Instr} {s t : State} (h : NextOf s t i)
    (hi : ¬(i = .cls ∨ ∃ x y n, i = .drw x y n)) : t.draw = s.draw := by
  cases i with
  | cls => exact absurd (.inl rfl) hi
  | drw x y n => exact absurd (.inr ⟨x, y, n, rfl⟩) hi
  | ret => obtain ⟨-, rfl⟩ := h; rfl
  | call nnn => obtain ⟨-, rfl⟩ := h; rfl
  | skp x => obtain ⟨-, rfl⟩ := h; rfl
  | sknp x => obtain ⟨-, rfl⟩ := h; rfl
  | ldVxK x => obtain ⟨-, rfl⟩ | ⟨k, -, rfl⟩ := h <;> rfl
  | ldBVx x => obtain ⟨-, rfl⟩ := h; rfl
  | ldMemVx x => obtain ⟨-, rfl⟩ := h; rfl
  | ldVxMem x => obtain ⟨-, rfl⟩ := h; rfl
  | _ => obtain rfl := h; rfl

/-- No step lowers a raised redraw flag (R279). -/
theorem step_keeps_draw {s t : State} (h : step s = .next t) (hs : s.draw = true) : t.draw = true := by
  obtain ⟨-, op, i, -, -, he⟩ := step_next h
  by_cases hi : i = .cls ∨ ∃ x y n, i = .drw x y n
  · exact draw_eq_true_of_nextOf (exec_next he) hi
  · exact (draw_eq_of_nextOf (exec_next he) hi).trans hs

/-- No step event lowers a raised redraw flag, whatever its outcome (R279). -/
theorem State.stepEvent_keeps_draw {s : State} (hs : s.draw = true) (rnd : Byte) : (s.stepEvent rnd).1.draw = true := by
  unfold State.stepEvent
  cases hstep : step (s.withDraw rnd) with
  | next t => simpa using step_keeps_draw hstep hs
  | fault f => exact hs
  | refused r => exact hs

/-- A `load` that is accepted writes memory only (R305). -/
theorem State.eq_setMem_of_load_eq_ok {s t : State} {bytes : List Byte} (h : s.load bytes = .ok t) :
    t = s.setMem (s.mem.putAll Config.progBase bytes) := by
  unfold State.load at h
  split at h
  · exact (Except.ok.inj h).symm
  · simp at h

/-- An event that is not refused does what it does after a `reset` (R310). -/
theorem Session.issueAfterReset_of_issue_eq_ok {font : Config.FontRom} {e : Event} {c : Session}
    {p : Session × Output} (h : c.issue font e = .ok p) : c.issueAfterReset font e = .ok p := by
  unfold Session.issue at h
  split at h
  · simp at h
  · exact h

/-- After a `load` event that is not refused the core is as it was, or has its image loaded (R305, R308). -/
theorem Session.core_of_issue_load {font : Config.FontRom} {bytes : List Byte} {c d : Session} {o : Output}
    (h : c.issue font (.load bytes) = .ok (d, o)) : d.core = c.core ∨ c.core.load bytes = .ok d.core := by
  have hafter := Session.issueAfterReset_of_issue_eq_ok h
  simp only [Session.issueAfterReset] at hafter
  split at hafter
  · cases hl : c.core.load bytes with
    | ok t => rw [hl] at hafter; cases hafter; exact .inr rfl
    | error f => rw [hl] at hafter; cases hafter; exact .inl rfl
  · simp at hafter

/-- Only `redraw_ack` lowers a raised redraw flag (R279). -/
theorem Session.issue_keeps_draw {font : Config.FontRom} {e : Event} {c d : Session} {o : Output}
    (h : c.issue font e = .ok (d, o)) (he : e ≠ .redrawAck) (hc : c.core.draw = true) : d.core.draw = true := by
  have hafter := Session.issueAfterReset_of_issue_eq_ok h
  cases e with
  | reset => cases hafter; rfl
  | load bytes =>
    obtain hd | hl := Session.core_of_issue_load h
    · rw [hd, hc]
    · rw [State.eq_setMem_of_load_eq_ok hl, State.draw_setMem, hc]
  | step rnd => cases hafter; exact State.stepEvent_keeps_draw hc rnd
  | tick => cases hafter; exact hc
  | keySet k v => cases hafter; exact hc
  | redrawAck => exact absurd rfl he

/-- Settles O47: `redraw_ack` field by field, the other events because each keeps a raised flag. -/
theorem redrawAckAloneLowersTheRedrawFlag : Obligations.RedrawAckAloneLowersTheRedrawFlag := by
  refine ⟨fun s => ⟨rfl, ?_⟩, fun font c d e o h hc hd => ?_, fun s t i h => draw_eq_true_of_nextOf (exec_next h)⟩
  · apply State.sameBut_of_fields <;> simp
  · by_contra he
    simp [Session.issue_keeps_draw h he hc] at hd

end Sys2Proof.Machine
end

section
/-! PROOFS. The family of 30_encoding.md, continued: decoding inverts encoding, encoding inverts decoding up to
the ignored bits, and the decoder agrees with the table of R96. -/

namespace Sys2Proof

/-! ### Decoding an encoded instruction (R92, R96) -/

/-- The word of a well-formed instruction decodes to it: the fields the encoder packed select its arm. -/
theorem decode_encode {i : Instr} (h : WellFormed i = true) : decode (encode i) = .ok i := by
  cases i with
  | cls => rfl
  | ret => rfl
  | sys nnn =>
    obtain ⟨hcls, hret⟩ : lowByte nnn ≠ 0xE0#8 ∧ lowByte nnn ≠ 0xEE#8 := by
      simpa [WellFormed, sysLowByteOk] using h
    simp [decode, encode, decodeFamily0, hcls, hret]
  | _ => simp [decode, encode, decodeFamily8, decodeFamilyE, decodeFamilyF]

/-- The two bytes of a word at the front of a list decode as the word, with the rest left over (R65, R90). -/
theorem decodeBytes_bytesOf_append {w : Word} {i : Instr} (h : decode w = .ok i) (rest : List Byte) :
    decodeBytes ([highByteOf w, lowByteOf w] ++ rest) = .ok (i, rest) := by
  simp [decodeBytes, h]

/-- Settles O1: by the fields of the packed word, then because its two bytes make the word again. -/
theorem decodeOfEncodeIsTheInstruction : Obligations.DecodeOfEncodeIsTheInstruction := fun _ rest h =>
  ⟨decode_encode h, decodeBytes_bytesOf_append (decode_encode h) rest⟩

/-- Settles O4: each word by evaluation. -/
theorem writtenOutWordsDecode : Obligations.WrittenOutWordsDecode := by
  unfold Obligations.WrittenOutWordsDecode
  decide

/-! ### Encoding a decoded word (R95) -/

/-- A word is its family and its address field. -/
theorem packNnn_fields {w : Word} {f : Nibble} (hf : family w = f) : packNnn f (fieldNnn w) = w := by
  apply BitVec.eq_of_toNat_eq
  rw [← hf, toNat_packNnn, toNat_family, toNat_fieldNnn]
  omega

/-- A word is its family, its register field and its low byte. -/
theorem packXNn_fields {w : Word} {f : Nibble} {nn : Byte} (hf : family w = f) (hnn : fieldNn w = nn) :
    packXNn f (fieldX w) nn = w := by
  apply BitVec.eq_of_toNat_eq
  rw [← hf, ← hnn, toNat_packXNn, toNat_family, val_fieldX, toNat_fieldNn]
  omega

/-- A word is its family, its two register fields and its low nibble. -/
theorem packXYN_fields {w : Word} {f n : Nibble} (hf : family w = f) (hn : fieldN w = n) :
    packXYN f (fieldX w) (fieldY w) n = w := by
  apply BitVec.eq_of_toNat_eq
  rw [← hf, ← hn, toNat_packXYN, toNat_family, val_fieldX, val_fieldY, toNat_fieldN]
  omega

/-- Where no bit is ignored, the mask leaves the word. -/
theorem and_noneIgnored (w : Word) : w &&& 0xFFFF#16 = w := BitVec.and_allOnes

/-- The mask of `5XY0` and `9XY0` clears the ignored low nibble. -/
theorem packXYN_zero_of_family {w : Word} {f : Nibble} (hf : family w = f) :
    packXYN f (fieldX w) (fieldY w) 0x0#4 = w &&& 0xFFF0#16 := by
  conv_rhs => rw [← packXYN_fields hf rfl]
  apply BitVec.eq_of_getLsbD_eq
  intro k hk
  rw [BitVec.getLsbD_and, Laws.getLsbD_packXYN, Laws.getLsbD_packXYN]
  interval_cases k <;> simp

/-- The mask of the shifts clears the ignored field `y`. -/
theorem packXYN_shift {w : Word} {f n : Nibble} (hf : family w = f) (hn : fieldN w = n) :
    packXYN f (fieldX w) 0 n = w &&& 0xFF0F#16 := by
  conv_rhs => rw [← packXYN_fields hf hn]
  apply BitVec.eq_of_getLsbD_eq
  intro k hk
  rw [BitVec.getLsbD_and, Laws.getLsbD_packXYN, Laws.getLsbD_packXYN]
  interval_cases k <;> simp [nibbleOf]

/-- The mask of `CLS` and `RET` clears the ignored nibble `op[11:8]`. -/
theorem and_opIgnored {w : Word} {f : Nibble} {nn : Byte} (hf : family w = f) (hnn : fieldNn w = nn) :
    w &&& 0xF0FF#16 = packXNn f 0 nn := by
  rw [← Laws.packXNn_and_sub f (fieldX w) nn, packXNn_fields hf hnn]

/-- The low byte of a word's address field is the word's low byte. -/
@[simp] theorem lowByte_fieldNnn (w : Word) : lowByte (fieldNnn w) = fieldNn w := by
  apply BitVec.eq_of_toNat_eq
  rw [toNat_lowByte, toNat_fieldNnn, toNat_fieldNn]
  omega

end Sys2Proof

namespace Sys2Proof.Machine

/-- The instruction is well formed, and its encoding is the word with the ignored bits zero (R95). -/
def Reencodes (w : Word) (i : Instr) : Prop := WellFormed i = true ∧ encode i = w &&& heededBits i

/-- An instruction that ignores no bit of its word is encoded as that word. -/
theorem reencodes_of_encode_eq {w : Word} {i : Instr} (hwf : WellFormed i = true) (hbits : heededBits i = 0xFFFF#16)
    (he : encode i = w) : Reencodes w i := by
  refine ⟨hwf, ?_⟩
  rw [hbits, and_noneIgnored, he]

/-- Family 0x0: `CLS` and `RET` ignore a nibble, and a `SYS` is left only with another low byte (R94, R95). -/
theorem reencodes_decodeFamily0 {w : Word} (hf : family w = 0x0#4) : Reencodes w (decodeFamily0 w) := by
  unfold decodeFamily0
  split
  case isTrue hcls => exact ⟨rfl, (and_opIgnored hf hcls).symm⟩
  case isFalse hcls =>
    split
    case isTrue hret => exact ⟨rfl, (and_opIgnored hf hret).symm⟩
    case isFalse hret =>
      exact reencodes_of_encode_eq (by simp [WellFormed, sysLowByteOk, hcls, hret]) rfl (packNnn_fields hf)

/-- Family 0x8: the shifts ignore `y`, the six others nothing (R94, R95). -/
theorem reencodes_of_decodeFamily8 {w : Word} {i : Instr} (hf : family w = 0x8#4) (h : decodeFamily8 w = .ok i) :
    Reencodes w i := by
  unfold decodeFamily8 at h
  split at h
  case h_7 hn => cases h; exact ⟨rfl, packXYN_shift hf hn⟩
  case h_8 hn => cases h; exact ⟨rfl, packXYN_shift hf hn⟩
  case h_9 => cases h
  all_goals cases h; exact reencodes_of_encode_eq rfl rfl (packXYN_fields hf ‹_›)

/-- Family 0xE ignores no bit (R95). -/
theorem reencodes_of_decodeFamilyE {w : Word} {i : Instr} (hf : family w = 0xE#4) (h : decodeFamilyE w = .ok i) :
    Reencodes w i := by
  unfold decodeFamilyE at h
  split at h
  case h_3 => cases h
  all_goals cases h; exact reencodes_of_encode_eq rfl rfl (packXNn_fields hf ‹_›)

/-- Family 0xF ignores no bit (R95). -/
theorem reencodes_of_decodeFamilyF {w : Word} {i : Instr} (hf : family w = 0xF#4) (h : decodeFamilyF w = .ok i) :
    Reencodes w i := by
  unfold decodeFamilyF at h
  split at h
  case h_10 => cases h
  all_goals cases h; exact reencodes_of_encode_eq rfl rfl (packXNn_fields hf ‹_›)

/-- What a word decodes to encodes as that word, the ignored bits zero (R95). -/
theorem reencodes_of_decode {w : Word} {i : Instr} (h : decode w = .ok i) : Reencodes w i := by
  unfold decode at h
  split at h
  case h_1 hf => cases h; exact reencodes_decodeFamily0 hf
  case h_6 hf => cases h; exact ⟨rfl, packXYN_zero_of_family hf⟩
  case h_9 hf => exact reencodes_of_decodeFamily8 hf h
  case h_10 hf => cases h; exact ⟨rfl, packXYN_zero_of_family hf⟩
  case h_14 hf => cases h; exact reencodes_of_encode_eq rfl rfl (packXYN_fields hf rfl)
  case h_15 hf => exact reencodes_of_decodeFamilyE hf h
  case h_16 =>
    have hf : family w = 0xF#4 := nibble_eq_15_of_not_mem _ (by simp_all)
    exact reencodes_of_decodeFamilyF hf h
  case h_2 hf | h_3 hf | h_11 hf | h_12 hf =>
    cases h; exact reencodes_of_encode_eq rfl rfl (packNnn_fields hf)
  all_goals cases h; exact reencodes_of_encode_eq rfl rfl (packXNn_fields ‹_› rfl)

/-- Settles O3: family by family, by what each instruction's mask clears. -/
theorem reencodingZeroesOnlyIgnoredBits : Obligations.ReencodingZeroesOnlyIgnoredBits := fun _ _ h =>
  reencodes_of_decode h

/-! ### The row a word selects (R96) -/

/-- Two rows that one word selects agree on the bits that both look at. -/
theorem bits_and_mask_of_selects {r q : OpcodeRow} {w : Word} (hr : r.selects w = true) (hq : q.selects w = true) :
    r.bits &&& q.mask = q.bits &&& r.mask := by
  simp only [OpcodeRow.selects, beq_iff_eq] at hr hq
  rw [← hr, ← hq, BitVec.and_assoc, BitVec.and_assoc, BitVec.and_comm r.mask]

/-- Rows that agree on the bits both look at are the same row, or row 3 and one of rows 1 and 2. -/
theorem opcodeTable_disjoint : ∀ r ∈ opcodeTable, ∀ q ∈ opcodeTable, r.bits &&& q.mask = q.bits &&& r.mask →
    r = q ∨ (r.num ≤ 2 ∧ q.num = 3) ∨ (q.num ≤ 2 ∧ r.num = 3) := by
  decide

/-- An instruction's own row looks at no bit that its decoding ignores (R95). -/
theorem heededBits_and_mask {i : Instr} {r : OpcodeRow} (hr : r ∈ opcodeTable) (hn : r.num = i.row) :
    heededBits i &&& r.mask = r.mask := by
  cases i with
  | cls | ret | seVxVy x y | sneVxVy x y | shrVx x | shlVx x =>
    simp only [Instr.row, heededBits] at hn ⊢
    revert r
    decide
  | _ => exact BitVec.allOnes_and

/-- The encoder's word selects the instruction's own row, for every instruction (R96). -/
theorem encodingRow (i : Instr) : Laws.EncodingRow.Statement i := by
  open Laws.EncodingRow in
  cases i
  exacts [cls, ret, sys _, jp _, call _, seVxNn _ _, sneVxNn _ _, seVxVy _ _, ldVxNn _ _, addVxNn _ _, ldVxVy _ _,
    orVxVy _ _, andVxVy _ _, xorVxVy _ _, addVxVy _ _, subVxVy _ _, shrVx _, shlVx _, sneVxVy _ _, ldINnn _, jpV0Nnn _,
    rndVxNn _ _, drw _ _ _, skp _, sknp _, ldVxDt _, ldVxK _, ldDtVx _, ldStVx _, addIVx _, ldFVx _, ldBVx _, ldMemVx _,
    ldVxMem _]

/-- A word that decodes selects the row of the instruction it decodes to (R96). -/
theorem exists_selects_of_decode {w : Word} {i : Instr} (h : decode w = .ok i) :
    ∃ r ∈ opcodeTable, r.num = i.row ∧ r.selects w = true := by
  obtain ⟨r, hr, hn, he⟩ := encodingRow i
  rw [(reencodes_of_decode h).2, BitVec.and_assoc, heededBits_and_mask hr hn] at he
  exact ⟨r, hr, hn, beq_iff_eq.2 he⟩

/-! ### What a row that is selected says of the fields -/

/-- Every row looks at the whole family field. -/
theorem family_mask : ∀ r ∈ opcodeTable, family r.mask = 0xF#4 := by decide

/-- A word has the family of the row it selects. -/
theorem family_eq_of_selects {r : OpcodeRow} {w : Word} (hr : r ∈ opcodeTable) (hs : r.selects w = true) :
    family w = family r.bits := by
  have hand : family (w &&& r.mask) = family w &&& family r.mask := BitVec.extractLsb'_and
  rw [family_mask r hr, beq_iff_eq.1 hs] at hand
  exact (hand.trans BitVec.and_allOnes).symm

/-- A word has the low nibble of the row it selects, where the row looks at all of it. -/
theorem fieldN_eq_of_selects {r : OpcodeRow} {w : Word} (hm : fieldN r.mask = 0xF#4) (hs : r.selects w = true) :
    fieldN w = fieldN r.bits := by
  have hand : fieldN (w &&& r.mask) = fieldN w &&& fieldN r.mask := BitVec.extractLsb'_and
  rw [hm, beq_iff_eq.1 hs] at hand
  exact (hand.trans BitVec.and_allOnes).symm

/-- A word has the low byte of the row it selects, where the row looks at all of it. -/
theorem fieldNn_eq_of_selects {r : OpcodeRow} {w : Word} (hm : fieldNn r.mask = 0xFF#8) (hs : r.selects w = true) :
    fieldNn w = fieldNn r.bits := by
  have hand : fieldNn (w &&& r.mask) = fieldNn w &&& fieldNn r.mask := BitVec.extractLsb'_and
  rw [hm, beq_iff_eq.1 hs] at hand
  exact (hand.trans BitVec.and_allOnes).symm

/-- The rows of families 0x8, 0xE and 0xF look at the whole of a known sub-opcode (R94). -/
theorem subOpcode_known : ∀ r ∈ opcodeTable,
    (family r.bits = 0x8#4 → fieldN r.mask = 0xF#4 ∧
      fieldN r.bits ∉ [0x7#4, 0x8#4, 0x9#4, 0xA#4, 0xB#4, 0xC#4, 0xD#4, 0xF#4]) ∧
    (family r.bits = 0xE#4 → fieldNn r.mask = 0xFF#8 ∧ fieldNn r.bits ∈ [0x9E#8, 0xA1#8]) ∧
    (family r.bits = 0xF#4 → fieldNn r.mask = 0xFF#8 ∧
      fieldNn r.bits ∈ [0x07#8, 0x0A#8, 0x15#8, 0x18#8, 0x1E#8, 0x29#8, 0x33#8, 0x55#8, 0x65#8]) := by
  decide

/-- A word that selects a row is not one of the unknown words (R96, R99). -/
theorem not_unknownWord_of_selects {r : OpcodeRow} {w : Word} (hr : r ∈ opcodeTable) (hs : r.selects w = true) :
    ¬UnknownWord w := by
  obtain ⟨h8, hE, hF⟩ := subOpcode_known r hr
  have hf := family_eq_of_selects hr hs
  rintro (⟨h, hu⟩ | ⟨h, hu⟩ | ⟨h, hu⟩)
  · obtain ⟨hm, hk⟩ := h8 (hf ▸ h)
    exact hk (fieldN_eq_of_selects hm hs ▸ hu)
  · obtain ⟨hm, hk⟩ := hE (hf ▸ h)
    exact hu (fieldNn_eq_of_selects hm hs ▸ hk)
  · obtain ⟨hm, hk⟩ := hF (hf ▸ h)
    exact hu (fieldNn_eq_of_selects hm hs ▸ hk)

/-! ### The first row selected (R96) -/

/-- Rows 1 and 2 are those of `CLS` and `RET`. -/
theorem row_le_two : ∀ r ∈ opcodeTable, r.num ≤ 2 → fieldNn r.mask = 0xFF#8 ∧ family r.bits = 0x0#4 ∧
    (r.num = 1 ∧ fieldNn r.bits = 0xE0#8 ∨ r.num = 2 ∧ fieldNn r.bits = 0xEE#8) := by
  decide

/-- A word that selects row 1 or row 2 decodes to the instruction of that row. -/
theorem decode_of_selects_row_le_two {r : OpcodeRow} {w : Word} (hr : r ∈ opcodeTable) (hn : r.num ≤ 2)
    (hs : r.selects w = true) : ∃ i, decode w = .ok i ∧ i.row = r.num := by
  obtain ⟨hm, hf, hsub⟩ := row_le_two r hr hn
  rw [← family_eq_of_selects hr hs] at hf
  rw [← fieldNn_eq_of_selects hm hs] at hsub
  obtain ⟨hnum, hb⟩ | ⟨hnum, hb⟩ := hsub
  · exact ⟨.cls, by simp [decode, decodeFamily0, hf, hb], hnum.symm⟩
  · exact ⟨.ret, by simp [decode, decodeFamily0, hf, hb], hnum.symm⟩

/-- The table lists its rows by rising number. -/
theorem opcodeTable_sorted : opcodeTable.Pairwise fun r q => r.num < q.num := by decide

/-- The first row selected has the least number of the rows selected. -/
theorem num_le_of_find?_selects {w : Word} {r q : OpcodeRow} (hq : opcodeTable.find? (·.selects w) = some q)
    (hr : r ∈ opcodeTable) (hs : r.selects w = true) : q.num ≤ r.num := by
  obtain ⟨-, before, after, heq, hnone⟩ := List.find?_eq_some_iff_append.1 hq
  have hsorted := opcodeTable_sorted
  rw [heq] at hr hsorted
  obtain hbefore | rfl | hafter : r ∈ before ∨ r = q ∨ r ∈ after := by simpa using hr
  · simpa [hs] using hnone r hbefore
  · exact le_rfl
  · exact (List.rel_of_pairwise_cons (List.pairwise_append.1 hsorted).2.1 hafter).le

/-- A word that decodes has its instruction's row as the first it selects (R96). -/
theorem tableRow_of_decode_ok {w : Word} {i : Instr} (h : decode w = .ok i) : tableRow w = some i.row := by
  obtain ⟨r, hr, hn, hs⟩ := exists_selects_of_decode h
  obtain ⟨q, hq⟩ := Option.isSome_iff_exists.1 (List.find?_isSome (p := (·.selects w)) |>.2 ⟨r, hr, hs⟩)
  have hqmem := List.mem_of_find?_eq_some hq
  have hqs : q.selects w = true := by simpa using List.find?_some hq
  have hle := num_le_of_find?_selects hq hr hs
  have hnum : q.num = r.num := by
    obtain rfl | ⟨hr2, hq3⟩ | ⟨hq2, hr3⟩ := opcodeTable_disjoint r hr q hqmem (bits_and_mask_of_selects hs hqs)
    · rfl
    · omega
    · obtain ⟨j, hj, hjrow⟩ := decode_of_selects_row_le_two hqmem hq2 hqs
      obtain rfl := Except.ok.inj (h.symm.trans hj)
      omega
  simp [tableRow, hq, hnum, hn]

/-- A word that decodes to nothing selects no row (R96, R99). -/
theorem tableRow_of_decode_error {w : Word} {e : DecodeReject} (h : decode w = .error e) : tableRow w = none := by
  have hu := ((decode_eq_error_iff w e).1 h).1
  have hnone : opcodeTable.find? (·.selects w) = none :=
    List.find?_eq_none.2 fun r hr hs => not_unknownWord_of_selects hr hs hu
  simp [tableRow, hnone]

/-- Settles O2: by what the word decodes to; two rows selected at once agree on the bits both look at, which only
row 3 does with rows 1 and 2. -/
theorem decodeSelectsTheTableRow : Obligations.DecodeSelectsTheTableRow := by
  refine fun w => ⟨?_, fun r hr q hq hrs hqs => opcodeTable_disjoint r hr q hq (bits_and_mask_of_selects hrs hqs)⟩
  cases h : decode w with
  | ok i => exact (tableRow_of_decode_ok h).symm
  | error e => exact (tableRow_of_decode_error h).symm

end Sys2Proof.Machine
end

section
/-! PROOFS. The invariant of reachable states (10_state.md): what a next state can hold in memory and on the stack, that
every instruction keeps the invariant, and with it every accepted schedule. -/

namespace Sys2Proof.Machine

/-! ### What an instruction can do to memory and to the stack -/

/-- The memory of a next state is the one before, or has a run of bytes inside memory written at `I` (R226, R227). -/
theorem mem_of_nextOf {i : Instr} {s t : State} (h : NextOf s t i) :
    t.mem = s.mem ∨ i.row ∈ [32, 33] ∧
      ∃ bs : List Byte, s.i.toNat + bs.length ≤ 4096 ∧ t.mem = s.mem.putAll s.i.toNat bs := by
  cases i with
  | ldBVx x =>
    obtain ⟨hin, rfl⟩ := h
    exact .inr ⟨by simp [Instr.row], bcdDigits (s.reg x), hin, rfl⟩
  | ldMemVx x =>
    obtain ⟨hin, rfl⟩ := h
    exact .inr ⟨by simp [Instr.row], s.regsUpTo x, by rw [State.length_regsUpTo]; omega, rfl⟩
  | drw x y n => obtain ⟨-, -, rfl⟩ := h; exact .inl rfl
  | ldVxK x => obtain ⟨-, rfl⟩ | ⟨k, -, rfl⟩ := h <;> exact .inl rfl
  | ret | call nnn | skp x | sknp x | ldVxMem x => obtain ⟨-, rfl⟩ := h; exact .inl rfl
  | _ => obtain rfl := h; exact .inl rfl

/-- The stack of a next state is the one before, with its top entry popped, or with the `PC` before pushed (R134,
R136). -/
theorem stack_of_nextOf {i : Instr} {s t : State} (h : NextOf s t i) :
    (t.sp = s.sp ∧ t.stack = s.stack) ∨
    (i = .ret ∧ t.sp.val + 1 = s.sp.val ∧ t.stack = s.stack) ∨
    (∃ nnn, i = .call nnn) ∧ ∃ hd : s.sp.val < 16, t.sp.val = s.sp.val + 1 ∧ t.stack = s.stack.set s.sp.val s.pc := by
  cases i with
  | ret => obtain ⟨hp, rfl⟩ := h; exact .inr (.inl ⟨rfl, Nat.sub_add_cancel hp, rfl⟩)
  | call nnn => obtain ⟨hd, rfl⟩ := h; exact .inr (.inr ⟨⟨nnn, rfl⟩, hd, rfl, rfl⟩)
  | drw x y n => obtain ⟨-, -, rfl⟩ := h; exact .inl ⟨rfl, rfl⟩
  | ldVxK x => obtain ⟨-, rfl⟩ | ⟨k, -, rfl⟩ := h <;> exact .inl ⟨rfl, rfl⟩
  | skp x | sknp x | ldBVx x | ldMemVx x | ldVxMem x => obtain ⟨-, rfl⟩ := h; exact .inl ⟨rfl, rfl⟩
  | _ => obtain rfl := h; exact .inl ⟨rfl, rfl⟩

/-! ### The invariant under a step (R28, R30) -/

/-- An instruction keeps memory canonical. -/
theorem memCanonical_of_nextOf {i : Instr} {s t : State} (h : NextOf s t i) (hs : s.mem.wf = true) :
    t.mem.wf = true := by
  obtain e | ⟨-, bs, hin, e⟩ := mem_of_nextOf h <;> rw [e]
  · exact hs
  · exact Memory.wf_putAll bs hs hin

/-- An advance from a fetched `PC`, or from a valid stack entry, stays far below 0x10FE (R28). -/
theorem toNat_add_two_le {w : Word} (hw : w.toNat ≤ 4094) : (w + 2#16).toNat ≤ 0x10FE := by
  rw [BitVec.toNat_add, BitVec.toNat_ofNat]
  omega

/-- So does a skip, whether it is taken or not (R28). -/
theorem toNat_skip_le {w : Word} (hw : w.toNat ≤ 4094) (c : Prop) [Decidable c] :
    (if c then w + 4#16 else w + 2#16).toNat ≤ 0x10FE := by
  split
  · rw [BitVec.toNat_add, BitVec.toNat_ofNat]
    omega
  · exact toNat_add_two_le hw

/-- An instruction fetched at a `PC` of at most 4094 leaves `PC` at most 0x10FE, by the table of R27; the bound is the
one of `JP V0, nnn` (R28). -/
theorem pcBound_of_nextOf {i : Instr} {s t : State} (h : NextOf s t i) (hpc : s.pc.toNat ≤ 4094)
    (hstack : ∀ j : Fin 16, j.val < s.sp.val → s.stack[j].toNat ≤ 4094) : t.pc.toNat ≤ 0x10FE := by
  have htable : pcTable i s t := pcTable_of_nextOf h
  cases i with
  | ret =>
    obtain ⟨hp, -⟩ := h
    have hlt := s.sp.isLt
    have htop : s.sp.val - 1 + 1 = s.sp.val := Nat.sub_add_cancel hp
    rw [htable ⟨s.sp.val - 1, by omega⟩ htop]
    exact toNat_add_two_le (hstack _ (by simp only; omega))
  | jp nnn | call nnn =>
    have haddr : t.pc.toNat = nnn.toNat := htable
    omega
  | jpV0Nnn nnn =>
    have hsum : t.pc.toNat = nnn.toNat + (s.reg 0).toNat := htable
    omega
  | seVxNn x nn | sneVxNn x nn | seVxVy x y | sneVxVy x y | skp x | sknp x => exact htable ▸ toNat_skip_le hpc _
  | ldVxK x =>
    obtain ⟨-, rfl⟩ | ⟨k, -, rfl⟩ := h
    · omega
    · exact toNat_add_two_le hpc
  | _ => exact htable ▸ toNat_add_two_le hpc

/-- An instruction fetched at a `PC` of at most 4094 keeps every valid stack entry at most 4094: a `CALL` pushes that
`PC` (R30). -/
theorem stackBound_of_nextOf {i : Instr} {s t : State} (h : NextOf s t i) (hpc : s.pc.toNat ≤ 4094)
    (hstack : ∀ j : Fin 16, j.val < s.sp.val → s.stack[j].toNat ≤ 4094) :
    ∀ j : Fin 16, j.val < t.sp.val → t.stack[j].toNat ≤ 4094 := by
  intro j hj
  obtain ⟨hsp, e⟩ | ⟨-, hsp, e⟩ | ⟨-, _, hsp, e⟩ := stack_of_nextOf h <;> rw [e]
  · exact hstack j (hsp ▸ hj)
  · exact hstack j (by omega)
  · by_cases htop : s.sp.val = j.val
    · simpa [Vector.getElem_set, htop] using hpc
    · simpa [Vector.getElem_set, htop] using hstack j (by omega)

/-- Settles O52: a step that answers a next state ran an instruction fetched at a `PC` of at most 4094. -/
theorem everyStepKeepsTheInvariant : Obligations.EveryStepKeepsTheInvariant := by
  rintro s t ⟨hmem, -, hstack⟩ h
  obtain ⟨hpc, op, i, -, -, he⟩ := step_next h
  have hnext : NextOf s t i := exec_next he
  exact ⟨memCanonical_of_nextOf hnext hmem, pcBound_of_nextOf hnext hpc hstack, stackBound_of_nextOf hnext hpc hstack⟩

/-! ### The invariant under the other events (R310) -/

/-- The `reset` event establishes the invariant, whatever the state and the font (R45, R300). -/
theorem State.inv_resetEvent (font : Config.FontRom) (s : State) : (s.resetEvent font).Inv :=
  ⟨resetMemory_wf font, show (0x0200#16).toNat ≤ 0x10FE by decide, nofun⟩

/-- Settles O53: `reset` clears memory but for the font, puts `PC` at 0x200 and empties the stack. -/
theorem resetMeetsTheInvariant : Obligations.ResetMeetsTheInvariant :=
  ⟨⟨Memory.wf_nil, show (0x0200#16).toNat ≤ 0x10FE by decide, nofun⟩, State.inv_resetEvent⟩

/-- The invariant speaks of memory, `PC` and the stack alone. -/
theorem State.Inv.of_eq {s t : State} (h : s.Inv) (hmem : t.mem = s.mem) (hpc : t.pc = s.pc) (hsp : t.sp = s.sp)
    (hstack : t.stack = s.stack) : t.Inv :=
  ⟨hmem ▸ h.memCanonical, hpc ▸ h.pcBound, by rw [hsp, hstack]; exact h.stackBound⟩

/-- A step event keeps the invariant, whatever its draw and its outcome. -/
theorem State.Inv.stepEvent {s : State} (h : s.Inv) (rnd : Byte) : (s.stepEvent rnd).1.Inv := by
  unfold State.stepEvent
  cases hs : step (s.withDraw rnd) with
  | next t =>
    have hdraw : (s.withDraw rnd).Inv := h.of_eq rfl rfl rfl rfl
    exact (everyStepKeepsTheInvariant _ t hdraw hs).of_eq rfl rfl rfl rfl
  | fault f => exact h
  | refused r => exact h

/-- A `load` that is accepted keeps the invariant (R305). -/
theorem State.Inv.load {s t : State} {bytes : List Byte} (h : s.Inv) (hl : s.load bytes = .ok t) : t.Inv := by
  refine ⟨State.load_wf hl h.memCanonical, ?_, ?_⟩ <;> rw [State.eq_setMem_of_load_eq_ok hl]
  · exact h.pcBound
  · exact h.stackBound

/-- Before the first `reset` no other event is accepted (R46, R310). -/
theorem Session.phase_ne_beforeReset_of_issue {font : Config.FontRom} {e : Event} {c : Session} {p : Session × Output}
    (h : c.issue font e = .ok p) (he : e ≠ .reset) : c.phase ≠ .beforeReset := by
  intro hc
  simp [Session.issue, hc, he] at h

/-- Every accepted event ends in the invariant, if the invariant holds wherever a `reset` has come before. -/
theorem Session.inv_of_issue {font : Config.FontRom} {e : Event} {c d : Session} {o : Output}
    (h : c.issue font e = .ok (d, o)) (hc : c.phase ≠ .beforeReset → c.core.Inv) : d.core.Inv := by
  have hafter := Session.issueAfterReset_of_issue_eq_ok h
  by_cases he : e = .reset
  · subst he
    cases hafter
    exact State.inv_resetEvent font c.core
  have hinv : c.core.Inv := hc (Session.phase_ne_beforeReset_of_issue h he)
  cases e with
  | reset => exact absurd rfl he
  | load bytes =>
    obtain hd | hl := Session.core_of_issue_load h
    · exact hd ▸ hinv
    · exact hinv.load hl
  | step rnd => cases hafter; exact hinv.stepEvent rnd
  | tick => cases hafter; exact hinv.of_eq rfl rfl rfl rfl
  | keySet k v => cases hafter; exact hinv.of_eq rfl rfl rfl rfl
  | redrawAck => cases hafter; exact hinv.of_eq rfl rfl rfl rfl

/-- What a session satisfies, and every accepted event of a schedule keeps, holds at the end of the schedule (R13). -/
theorem Session.run_induction {font : Config.FontRom} {P : Session → Prop} {es : List Event} {c d : Session}
    {os : List Output} (hrun : Session.run font es c = .ok (d, os)) (hc : P c)
    (hkeep : ∀ e ∈ es, ∀ (c d : Session) (o : Output), P c → c.issue font e = .ok (d, o) → P d) : P d := by
  induction es generalizing c os with
  | nil => cases hrun; exact hc
  | cons e es ih =>
    unfold Session.run at hrun
    split at hrun
    case h_1 => cases hrun
    case h_2 c' o hissue =>
      split at hrun
      case h_1 => cases hrun
      case h_2 hrest =>
        cases hrun
        exact ih hrest (hkeep e (by simp) c c' o hc hissue) fun e' he' => hkeep e' (by simp [he'])

/-- Settles O54: by induction along the schedule, each accepted event ending in the invariant. -/
theorem everyScheduleKeepsTheInvariant : Obligations.EveryScheduleKeepsTheInvariant := fun _ _ _ _ _ hrun hc =>
  Session.run_induction (P := fun c => c.phase ≠ .beforeReset → c.core.Inv) hrun hc
    fun _ _ _ _ _ h hissue _ => Session.inv_of_issue hissue h

end Sys2Proof.Machine
end

section
/-! PROOFS. The family of 70_reset_and_hazards.md: the `load` event, when it is legal, and the end of a run. -/

namespace Sys2Proof.Machine

/-! ### The `load` event (R305, R306) -/

/-- An image of at most 3584 bytes is copied (R305). -/
theorem State.load_of_length_le {bytes : List Byte} (h : bytes.length ≤ 3584) (s : State) :
    s.load bytes = .ok (s.setMem (s.mem.putAll 0x200 bytes)) :=
  if_pos h

/-- A longer image is rejected (R305). -/
theorem State.load_of_lt_length {bytes : List Byte} (h : 3584 < bytes.length) (s : State) :
    s.load bytes = .error (.loadError bytes.length) :=
  if_neg (Nat.not_le.2 h)

/-- While a `load` is legal, a `load` of at most 3584 bytes succeeds, and with it no further one is legal (R308). -/
theorem Session.issue_load_of_length_le {c : Session} (hc : c.phase = .loadable) {bytes : List Byte}
    (h : bytes.length ≤ 3584) (font : Config.FontRom) :
    c.issue font (.load bytes) = .ok (⟨c.core.setMem (c.core.mem.putAll 0x200 bytes), .running⟩, .loadOk) := by
  simp [Session.issue, Session.issueAfterReset, hc, State.load_of_length_le h]

/-- While a `load` is legal, a `load` of more than 3584 bytes reports `LoadError` and changes nothing (R308). -/
theorem Session.issue_load_of_lt_length {c : Session} (hc : c.phase = .loadable) {bytes : List Byte}
    (h : 3584 < bytes.length) (font : Config.FontRom) :
    c.issue font (.load bytes) = .ok (c, .loadError bytes.length) := by
  simp [Session.issue, Session.issueAfterReset, hc, State.load_of_lt_length h]

/-- Settles O49: the image is written as one run of bytes inside memory, or nothing is. -/
theorem loadCopiesTheImageOrRejectsItWhole : Obligations.LoadCopiesTheImageOrRejectsItWhole := by
  refine fun s bytes => ⟨fun h => ⟨_, s.load_of_length_le h, fun k b hb => ?_, fun a ha => ?_, ?_⟩,
    fun h => ⟨s.load_of_lt_length h, fun font c _ hc => Session.issue_load_of_lt_length hc h font⟩⟩
  · exact s.mem.read_putAll_of_getElem? hb (by omega)
  · exact s.mem.read_putAll_outside ha
  · apply State.sameBut_of_fields <;> simp

/-! ### When a `load` is legal (R308) -/

/-- A `load` that is not refused was legal, and it succeeds or reports `LoadError` (R308). -/
theorem Session.issue_load_cases {font : Config.FontRom} {bytes : List Byte} {c d : Session} {o : Output}
    (h : c.issue font (.load bytes) = .ok (d, o)) :
    c.phase = .loadable ∧ (d.phase = .running ∧ o = .loadOk ∨ d = c ∧ o = .loadError bytes.length) := by
  have hc : c.phase = .loadable := by
    by_contra hc
    simpa [Session.issueAfterReset, hc] using Session.issueAfterReset_of_issue_eq_ok h
  refine ⟨hc, ?_⟩
  obtain hlen | hlen := le_or_gt bytes.length 3584
  · rw [Session.issue_load_of_length_le hc hlen] at h
    cases h
    exact .inl ⟨rfl, rfl⟩
  · rw [Session.issue_load_of_lt_length hc hlen] at h
    cases h
    exact .inr ⟨rfl, rfl⟩

/-- While a `load` is legal it stays so, until one succeeds or a `step` comes (R308). -/
theorem Session.phase_eq_loadable_of_issue {font : Config.FontRom} {e : Event} {c d : Session} {o : Output}
    (h : c.issue font e = .ok (d, o)) (hc : c.phase = .loadable) (ho : o ≠ .loadOk) (he : ∀ rnd, e ≠ .step rnd) :
    d.phase = .loadable := by
  have hafter := Session.issueAfterReset_of_issue_eq_ok h
  cases e with
  | reset => cases hafter; rfl
  | load bytes =>
    obtain ⟨-, ⟨-, hok⟩ | ⟨rfl, -⟩⟩ := Session.issue_load_cases h
    · exact absurd hok ho
    · exact hc
  | step rnd => exact absurd rfl (he rnd)
  | tick => cases hafter; exact hc
  | keySet k v => cases hafter; exact hc
  | redrawAck => cases hafter; exact hc

/-- A `load` that succeeds and a `step` end the time in which a `load` is legal (R308). -/
theorem Session.phase_eq_running_of_issue {font : Config.FontRom} {e : Event} {c d : Session} {o : Output}
    (h : c.issue font e = .ok (d, o)) (he : o = .loadOk ∨ ∃ rnd, e = .step rnd) : d.phase = .running := by
  have hafter := Session.issueAfterReset_of_issue_eq_ok h
  obtain rfl | ⟨rnd, rfl⟩ := he
  · cases e with
    | load bytes =>
      obtain ⟨-, ⟨hd, -⟩ | ⟨-, herror⟩⟩ := Session.issue_load_cases h
      · exact hd
      · cases herror
    | _ => cases hafter
  · cases hafter
    rfl

/-- Only a `reset` makes a `load` legal again (R308). -/
theorem Session.issue_keeps_running {font : Config.FontRom} {e : Event} {c d : Session} {o : Output}
    (h : c.issue font e = .ok (d, o)) (hc : c.phase = .running) (he : e ≠ .reset) : d.phase = .running := by
  have hafter := Session.issueAfterReset_of_issue_eq_ok h
  cases e with
  | reset => exact absurd rfl he
  | load bytes =>
    obtain ⟨hlegal, -⟩ := Session.issue_load_cases h
    simp [hc] at hlegal
  | step rnd => cases hafter; rfl
  | tick => cases hafter; exact hc
  | keySet k v => cases hafter; exact hc
  | redrawAck => cases hafter; exact hc

/-- A `load` that is not legal is refused (R308). -/
theorem Session.issue_load_of_running {c : Session} (hc : c.phase = .running) (font : Config.FontRom)
    (bytes : List Byte) : c.issue font (.load bytes) = .error .loadClosed := by
  simp [Session.issue, Session.issueAfterReset, hc]

/-- Settles O50: by the phase of the session, which only a `reset` takes back. -/
theorem loadIsLegalOnceBeforeTheFirstStep : Obligations.LoadIsLegalOnceBeforeTheFirstStep := by
  intro font
  refine ⟨fun c => ⟨⟨c.core.resetEvent font, .loadable⟩, by simp [Session.issue, Session.issueAfterReset], rfl⟩,
    fun c bytes hc => ⟨fun hlen => ⟨_, Session.issue_load_of_length_le hc hlen font⟩,
      fun hlen => Session.issue_load_of_lt_length hc hlen font⟩,
    fun c d e o hc h => Session.phase_eq_loadable_of_issue h hc, ?_⟩
  intro c d e ev o es os bytes hissue hev hrun hreset
  have hd : d.phase = .running := Session.phase_eq_running_of_issue hissue hev
  have he : e.phase = .running := Session.run_induction (P := fun c => c.phase = .running) hrun hd
    fun _ hmem _ _ _ hc h => Session.issue_keeps_running h hc (ne_of_mem_of_not_mem hmem hreset)
  exact Session.issue_load_of_running he font bytes

/-! ### The end of a run (R312) -/

/-- Settles O60: the jump sets `PC` to the value it has. -/
theorem finalStateIsLeftUnchangedByEveryStep : Obligations.FinalStateIsLeftUnchangedByEveryStep := by
  rintro s ⟨nnn, hi, hnnn⟩
  have hpc : zextAddr nnn = s.pc := BitVec.eq_of_toNat_eq ((toNat_zextAddr nnn).trans hnnn)
  calc step s = .next (s.setPc (zextAddr nnn)) := step_of_currentInstr hi
    _ = .next (s.setPc s.pc) := by rw [hpc]

end Sys2Proof.Machine
end

section
/-! PROOFS. What is left of the families 30 and 40 to 43: that no step is refused, `RET`, the free draw, the logic
operations, and `SUB`. -/

namespace Sys2Proof.Machine

/-- Settles O9: every arm of `exec` answers a next state or a fault, and so does a step. -/
theorem noStepIsRefused : Obligations.NoStepIsRefused := fun i s r => ⟨exec_ne_refused i s r, step_ne_refused s r⟩

/-- Settles O14: with an entry on top it is popped; with none the fault is the one of the table of R251. -/
theorem retPopsIntoPcPlusTwoOrUnderflows : Obligations.RetPopsIntoPcPlusTwoOrUnderflows := by
  refine fun s => ⟨fun hp => ?_, fun hempty => (exec_eq_fault_iff .ret s _).2 ⟨hempty, rfl⟩⟩
  obtain ⟨top, htop⟩ : ∃ top : Fin 16, s.sp.val = top.val + 1 :=
    ⟨⟨s.sp.val - 1, by omega⟩, (Nat.sub_add_cancel hp).symm⟩
  obtain ⟨t, e, hpc, hsp, hframe⟩ := execRet_of_sp_eq_succ htop
  refine ⟨t, e, by omega, fun j hj => ?_, hframe⟩
  obtain rfl : j = top := Fin.ext (by omega)
  exact hpc

/-- Settles O22: without a supplied draw the current one is the free value, and using it is counted. -/
theorem rndWithoutADrawMasksTheFreeValue : Obligations.RndWithoutADrawMasksTheFreeValue := by
  intro s x nn
  refine ⟨(s.useDraw.setReg x (s.currentDraw &&& nn)).advance, rfl, rfl, rfl, fun hr => ?_,
    fun r hr => s.useDraw.reg_setReg_of_ne _ hr, rfl, s.sameBut_advance_setReg_useDraw x _⟩
  rw [State.reg_advance, State.reg_setReg_same, State.currentDraw, hr, Option.getD_none]

/-- Settles O24: each writes one register, and a bit of the result is the operation on the bits. -/
theorem logicWritesOnlyTheResult : Obligations.LogicWritesOnlyTheResult := fun s x y =>
  ⟨⟨_, _, rfl, s.writesOnly_advance_setReg x (s.reg x ||| s.reg y), fun _ => BitVec.getLsbD_or⟩,
    ⟨_, _, rfl, s.writesOnly_advance_setReg x (s.reg x &&& s.reg y), fun _ => BitVec.getLsbD_and⟩,
    ⟨_, _, rfl, s.writesOnly_advance_setReg x (s.reg x ^^^ s.reg y), fun _ => BitVec.getLsbD_xor⟩⟩

/-- The difference of two bytes is the difference of their values modulo 256 (R175). -/
theorem ofNat_toNat_sub_toNat_mod (a b : Byte) : BitVec.ofNat 8 ((a.toNat + 256 - b.toNat) % 256) = a - b := by
  apply BitVec.eq_of_toNat_eq
  have := b.isLt
  rw [BitVec.toNat_sub, BitVec.toNat_ofNat]
  omega

/-- Settles O26: the difference of the bytes is the one modulo 256, and the no-borrow flag is written after it. -/
theorem subVxVyWritesDifferenceThenNoBorrow : Obligations.SubVxVyWritesDifferenceThenNoBorrow := by
  intro s x y
  rw [ofNat_toNat_sub_toNat_mod]
  exact ⟨_, rfl, s.writesResultAndFlag_advance_setResultThenFlag x _ (noBorrow (s.reg x) (s.reg y))⟩

end Sys2Proof.Machine
end

section
/-! PROOFS. Rules over more than one event: a store and the fetch after it, ticks in a row, a sprite drawn twice; and
that canonical memory is determined by its reads. -/

namespace Sys2Proof.Machine

/-! ### A store over the next instruction (R77) -/

/-- The fetched word is made of the two bytes that `PC` and `PC + 1` read as (R62, R65). -/
theorem State.fetch_of_read {s : State} {hi lo : Byte} (hhi : s.mem.read s.pc.toNat = .ok hi)
    (hlo : s.mem.read (s.pc.toNat + 1) = .ok lo) : s.fetch = .ok (wordOfBytes hi lo) := by
  simp only [State.fetch, hhi, hlo]

/-- Settles O43: the store puts `V[0]` and `V[1]` where the next fetch reads. -/
theorem storeIsSeenByTheNextFetch : Obligations.StoreIsSeenByTheNextFetch := by
  intro s x hi hx hat hin
  obtain ⟨t, he, hstored, -, hpc, -⟩ := (ldMemVxStoresTheRegistersOrFaults s x).1 hin
  have htpc : t.pc.toNat = s.i.toNat := by
    rw [hpc, BitVec.toNat_add, BitVec.toNat_ofNat]
    omega
  have hfetch : t.fetch = .ok (wordOfBytes (s.reg 0) (s.reg 1)) :=
    State.fetch_of_read (htpc ▸ hstored 0 (Nat.zero_le _)) (htpc ▸ hstored 1 hx)
  exact ⟨t, (step_of_currentInstr hi).trans he, hfetch, fun i hd => step_of_decode_ok hfetch hd⟩

/-! ### Ticks with nothing between them (R271, R272) -/

/-- The sound timer after `k` ticks: down by `k`, stopping at 0. -/
theorem State.toNat_st_ticks (k : Nat) : ∀ s : State, (s.ticks k).1.st.toNat = s.st.toNat - k := by
  induction k with
  | zero => exact fun s => rfl
  | succ k ih =>
    intro s
    calc (s.ticks (k + 1)).1.st.toNat = s.tick.1.st.toNat - k := ih s.tick.1
      _ = s.st.toNat - (k + 1) := by rw [(tickCountsBothTimersDown s).2.1]; omega

/-- The delay timer after `k` ticks: down by `k`, stopping at 0. -/
theorem State.toNat_dt_ticks (k : Nat) : ∀ s : State, (s.ticks k).1.dt.toNat = s.dt.toNat - k := by
  induction k with
  | zero => exact fun s => rfl
  | succ k ih =>
    intro s
    calc (s.ticks (k + 1)).1.dt.toNat = s.tick.1.dt.toNat - k := ih s.tick.1
      _ = s.dt.toNat - (k + 1) := by rw [(tickCountsBothTimersDown s).1]; omega

/-- The pulse of one tick (R270). -/
theorem State.snd_tick (s : State) : s.tick.2 = decide (s.st.toNat = 1) := by
  rw [Bool.eq_iff_iff, (tickCountsBothTimersDown s).2.2.1, decide_eq_true_eq]

/-- Of `k` ticks, the one at index `j` returns a pulse exactly when `ST` was `j + 1` (R271). -/
theorem State.getElem?_ticks {k j : Nat} (h : j < k) (s : State) :
    (s.ticks k).2[j]? = some (decide (j + 1 = s.st.toNat)) := by
  induction k generalizing s j with
  | zero => omega
  | succ k ih =>
    have hst : s.tick.1.st.toNat = s.st.toNat - 1 := toNat_countDown s.st
    cases j with
    | zero => exact congrArg some (s.snd_tick.trans (by simp [eq_comm]))
    | succ j =>
      calc (s.ticks (k + 1)).2[j + 1]? = (s.tick.1.ticks k).2[j]? := List.getElem?_cons_succ
        _ = some (decide (j + 1 = s.tick.1.st.toNat)) := ih (by omega) s.tick.1
        _ = some (decide (j + 1 + 1 = s.st.toNat)) := by
          congr 2
          rw [hst, eq_iff_iff]
          omega

/-- Settles O45: by induction on the number of ticks. -/
theorem toneSoundsOnceAtTheLastCount : Obligations.ToneSoundsOnceAtTheLastCount := fun s k _ hj =>
  ⟨s.getElem?_ticks hj, s.toNat_st_ticks k, s.toNat_dt_ticks k⟩

/-! ### Canonical memory (log 12) -/

/-- A canonical list that is not empty: its first cell is inside memory, is listed because it differs from what it would
read as otherwise, and all others lie above it. -/
theorem Memory.wfFrom_cons_iff (lo a : Nat) (b : Byte) (m : Memory) : Memory.wfFrom lo ((a, b) :: m) = true ↔
    lo ≤ a ∧ a < 4096 ∧ b ≠ unlistedByte a ∧ Memory.wfFrom (a + 1) m = true := by
  simp [Memory.wfFrom, and_assoc]

/-- Below the address that a canonical list starts from, nothing is listed. -/
theorem Memory.byteAt_of_lt {m : Memory} {lo a : Nat} (h : Memory.wfFrom lo m = true) (ha : a < lo) :
    m.byteAt a = unlistedByte a := by
  induction m generalizing lo with
  | nil => rfl
  | cons p m ih =>
    obtain ⟨hlo, -, -, hm⟩ := (Memory.wfFrom_cons_iff lo p.1 p.2 m).1 h
    rw [Memory.byteAt, if_neg (by omega)]
    exact ih hm (by omega)

/-- The first cell of a canonical list is read otherwise in a canonical list that starts above it. -/
theorem Memory.byteAt_head_ne {m n : Memory} {lo a : Nat} {b : Byte} (hm : Memory.wfFrom lo ((a, b) :: m) = true)
    (hn : Memory.wfFrom (a + 1) n = true) : Memory.byteAt ((a, b) :: m) a ≠ n.byteAt a := by
  obtain ⟨-, -, hb, -⟩ := (Memory.wfFrom_cons_iff lo a b m).1 hm
  rwa [Memory.byteAt_of_lt hn (Nat.lt_succ_self a), Memory.byteAt, if_pos rfl]

/-- Canonical lists that give every address of memory the same byte are the same list. -/
theorem Memory.eq_of_byteAt_eq {m n : Memory} {lo : Nat} (hm : Memory.wfFrom lo m = true)
    (hn : Memory.wfFrom lo n = true) (h : ∀ a, a < 4096 → m.byteAt a = n.byteAt a) : m = n := by
  induction m generalizing n lo with
  | nil =>
    cases n with
    | nil => rfl
    | cons q n =>
      obtain ⟨-, hq, -, -⟩ := (Memory.wfFrom_cons_iff lo q.1 q.2 n).1 hn
      exact absurd (h q.1 hq).symm (Memory.byteAt_head_ne hn rfl)
  | cons p m ih =>
    obtain ⟨-, hp, -, hm'⟩ := (Memory.wfFrom_cons_iff lo p.1 p.2 m).1 hm
    cases n with
    | nil => exact absurd (h p.1 hp) (Memory.byteAt_head_ne hm rfl)
    | cons q n =>
      obtain ⟨-, hq, hd, hn'⟩ := (Memory.wfFrom_cons_iff lo q.1 q.2 n).1 hn
      obtain ⟨a, b⟩ := p
      obtain ⟨c, d⟩ := q
      obtain hlt | rfl | hgt := Nat.lt_trichotomy a c
      · have habove : Memory.wfFrom (a + 1) ((c, d) :: n) = true :=
          (Memory.wfFrom_cons_iff _ c d n).2 ⟨hlt, hq, hd, hn'⟩
        exact absurd (h a hp) (Memory.byteAt_head_ne hm habove)
      · obtain rfl : b = d := by simpa [Memory.byteAt] using h a hp
        refine congrArg _ (ih hm' hn' fun k hk => ?_)
        by_cases hka : a = k
        · subst hka
          rw [Memory.byteAt_of_lt hm' (Nat.lt_succ_self a), Memory.byteAt_of_lt hn' (Nat.lt_succ_self a)]
        · simpa [Memory.byteAt, hka] using h k hk
      · have hb := ((Memory.wfFrom_cons_iff lo a b m).1 hm).2.2.1
        have habove : Memory.wfFrom (c + 1) ((a, b) :: m) = true :=
          (Memory.wfFrom_cons_iff _ a b m).2 ⟨hgt, hp, hb, hm'⟩
        exact absurd (h c hq).symm (Memory.byteAt_head_ne hn habove)

/-- Settles O55: inside memory a checked read is the byte there. -/
theorem canonicalMemoryIsDeterminedByReads : Obligations.CanonicalMemoryIsDeterminedByReads := by
  refine fun m n hm hn h => Memory.eq_of_byteAt_eq hm hn fun a ha => ?_
  have hread := h a
  rw [Memory.read_of_lt m ha, Memory.read_of_lt n ha] at hread
  exact Except.ok.inj hread

/-! ### Drawing a sprite twice (R198) -/

/-- Memories that read the same byte everywhere give the same runs of bytes. -/
theorem Memory.bytesAt_congr {m n : Memory} (h : ∀ a, m.byteAt a = n.byteAt a) (a k : Nat) :
    m.bytesAt a k = n.bytesAt a k := by
  induction k generalizing a with
  | zero => rfl
  | succ k ih => simp only [Memory.bytesAt, h, ih]

/-- Flipping the same pixels of the grid twice restores the framebuffer (R198). -/
theorem fst_blit_blit {ps : List (Nat × Nat)} (hn : ps.Nodup) (hgrid : ∀ p ∈ ps, offGrid p = false)
    (fb : Framebuffer) : (blit (blit fb ps).1 ps).1 = fb := by
  apply Framebuffer.ext_pixel
  intro px py _ _
  rw [pixel_blit ps _ hn hgrid, pixel_blit ps fb hn hgrid, Bool.xor_assoc, Bool.xor_self, Bool.xor_false]

/-- The same sprite at the same place covers the same pixels, whatever the rest of the state. -/
theorem drwPixels_congr {s u : State} {x y : RegName} (n : Nibble) (hx : u.reg x = s.reg x) (hy : u.reg y = s.reg y)
    (hi : u.i = s.i) (hmem : ∀ a, u.mem.byteAt a = s.mem.byteAt a) : drwPixels x y n u = drwPixels x y n s := by
  unfold drwPixels
  rw [hx, hy, hi, Memory.bytesAt_congr hmem]

/-- Flipping the pixels of a sprite on the grid negates each covered one (R192). -/
theorem pixel_blit_drwPixels_of_covers {x y : RegName} {n : Nibble} {s : State} {px py : Nat}
    (hgrid : ∀ p ∈ drwPixels x y n s, offGrid p = false) (fb : Framebuffer)
    (hc : s.Covers (s.reg x).toNat (s.reg y).toNat n.toNat px py) :
    Framebuffer.pixel (blit fb (drwPixels x y n s)).1 px py = !Framebuffer.pixel fb px py :=
  Bool.eq_not_of_ne ((pixel_blit_drwPixels_ne_iff hgrid fb px py).2 hc)

/-- A flag is 1 as a byte exactly when it is set. -/
theorem flagByte_eq_one_iff (c : Bool) : flagByte c = 1#8 ↔ c = true := by
  cases c <;> simp [flagByte]

/-- Settles O31: the second draw flips the same pixels, each of which is the negation of what it was. -/
theorem drawingTwiceRestoresTheScreen : Obligations.DrawingTwiceRestoresTheScreen := by
  intro s t u x y n h hfb hx hy hi hmem
  obtain ⟨hrows, hgrid, rfl⟩ : _ ∧ _ ∧ t = drwNext x y n s := exec_next h
  have hpixels : drwPixels x y n u = drwPixels x y n s := drwPixels_congr n hx hy hi hmem
  have hufb : u.fb = (blit s.fb (drwPixels x y n s)).1 := hfb
  have hdraw : execDrw x y n u = .next (drwNext x y n u) := execDrw_of_onGrid (hi ▸ hrows) (hpixels ▸ hgrid)
  have hwfb : (drwNext x y n u).fb = (blit u.fb (drwPixels x y n u)).1 := rfl
  refine ⟨drwNext x y n u, hdraw, ?_, reg_15_drwNext_eq_one_iff hgrid, ?_⟩
  · rw [hwfb, hpixels, hufb, fst_blit_blit (nodup_drwPixels x y n s) hgrid]
  · rw [reg_15_drwNext, flagByte_eq_one_iff, hpixels, hit_blit_drwPixels_iff hgrid, hufb]
    refine exists₂_congr fun px py => and_congr_right fun hc => ?_
    rw [pixel_blit_drwPixels_of_covers hgrid s.fb hc, Bool.not_eq_true']

end Sys2Proof.Machine
end

section
/-! PROOFS. The rules of 10_state.md and 60_exceptions.md over every instruction: who writes which piece of state, and
what a program cannot observe. -/

namespace Sys2Proof.Machine

/-! ### Who writes which piece of state -/

/-- `I`, the timers and the pixels are kept but for the rows the state table names, and `KEY` by all of them. -/
theorem unwritten_of_nextOf {i : Instr} {s t : State} (h : NextOf s t i) :
    (t.i = s.i ∨ i.row ∈ [20, 30, 31, 34]) ∧ (t.dt = s.dt ∨ i.row = 28) ∧ (t.st = s.st ∨ i.row = 29) ∧
      (t.fb = s.fb ∨ i.row ∈ [1, 23]) ∧ t.key = s.key := by
  cases i with
  | ret | call nnn | skp x | sknp x | ldBVx x | ldMemVx x => obtain ⟨-, rfl⟩ := h; simp
  | ldVxK x => obtain ⟨-, rfl⟩ | ⟨k, -, rfl⟩ := h <;> simp
  | drw x y n => obtain ⟨-, -, rfl⟩ := h; simp [Instr.row]
  | ldVxMem x => obtain ⟨-, rfl⟩ := h; simp [Instr.row]
  | _ => obtain rfl := h; simp [Instr.row]

/-- The rows of `CLS` and `DRW` are theirs alone. -/
theorem row_mem_of_draws {i : Instr} (h : i = .cls ∨ ∃ x y n, i = .drw x y n) : i.row ∈ [1, 23] := by
  obtain rfl | ⟨x, y, n, rfl⟩ := h <;> simp [Instr.row]

/-- Settles O58: piece by piece, by what a next state keeps. -/
theorem onlyTheNamedInstructionsWriteEachState : Obligations.OnlyTheNamedInstructionsWriteEachState := by
  intro i s t he
  have h : NextOf s t i := exec_next he
  obtain ⟨hi, hdt, hst, hfb, hkey⟩ := unwritten_of_nextOf h
  refine ⟨hi.resolve_left, fun hsp => ?_, fun ⟨j, hj⟩ => ?_, hdt.resolve_left, hst.resolve_left,
    fun ⟨px, py, hp⟩ => ?_, fun hdraw => ?_, hkey, fun ⟨a, ha⟩ => ?_⟩
  · obtain ⟨e, -⟩ | ⟨rfl, -⟩ | ⟨⟨nnn, rfl⟩, -⟩ := stack_of_nextOf h
    · exact absurd e hsp
    · simp [Instr.row]
    · simp [Instr.row]
  · obtain ⟨-, e⟩ | ⟨-, -, e⟩ | ⟨⟨nnn, rfl⟩, -⟩ := stack_of_nextOf h
    · simp [e] at hj
    · simp [e] at hj
    · rfl
  · exact hfb.resolve_left fun e => hp (by rw [e])
  · have hdraws : i = .cls ∨ ∃ x y n, i = .drw x y n := by
      by_contra hother
      exact hdraw (draw_eq_of_nextOf h hother)
    exact ⟨row_mem_of_draws hdraws, draw_eq_true_of_nextOf h hdraws⟩
  · obtain e | ⟨hrow, -⟩ := mem_of_nextOf h
    · exact absurd (by rw [e]) ha
    · exact hrow

/-! ### Who writes `VF` (R23) -/

/-- A register that a write changes is the one written. -/
theorem eq_of_reg_setReg_ne {s : State} {x r : RegName} {b : Byte} (h : (s.setReg x b).reg r ≠ s.reg r) : x = r := by
  by_contra hne
  exact h (s.reg_setReg_of_ne b (Ne.symm hne))

/-- `VF` changed by a bulk load is the last register loaded (R228). -/
theorem eq_15_of_reg_setRegs_ne {s : State} {a : Nat} {x : RegName}
    (h : (s.setRegs (s.mem.bytesAt a (x.val + 1))).reg 15 ≠ s.reg 15) : x = 15 := by
  by_contra hne
  have hlt : x.val + 1 ≤ (15 : RegName).val := by
    have hx := x.isLt
    have hval : x.val ≠ 15 := fun hv => hne (Fin.ext hv)
    change x.val + 1 ≤ 15
    omega
  exact h (s.reg_setRegs_bytesAt_of_le a hlt)

/-- Settles O59: a next state has `VF` as a flag, has its destination written, or has every register as before. -/
theorem vfChangesOnlyAsFlagOrDestination : Obligations.VfChangesOnlyAsFlagOrDestination := by
  intro i s t he hvf
  have h : NextOf s t i := exec_next he
  cases i with
  | addVxVy x y | subVxVy x y | shrVx x | shlVx x | drw x y n => exact .inl (by simp [Instr.row])
  | ldVxNn x nn | addVxNn x nn | ldVxVy x y | orVxVy x y | andVxVy x y | xorVxVy x y | rndVxNn x nn | ldVxDt x =>
    obtain rfl := h
    exact .inr (congrArg some (eq_of_reg_setReg_ne hvf))
  | ldVxK x =>
    obtain ⟨-, rfl⟩ | ⟨k, -, rfl⟩ := h
    · exact absurd rfl hvf
    · exact .inr (congrArg some (eq_of_reg_setReg_ne hvf))
  | ldVxMem x =>
    obtain ⟨-, rfl⟩ := h
    exact .inr (congrArg some (eq_15_of_reg_setRegs_ne hvf))
  | ret | call nnn | skp x | sknp x | ldBVx x | ldMemVx x =>
    obtain ⟨_, rfl⟩ := h
    exact absurd rfl hvf
  | _ =>
    obtain rfl := h
    exact absurd rfl hvf

/-! ### What a program cannot observe (R29, R45, R265) -/

/-- New values of the sound timer, the redraw flag and the stack, its valid entries kept, give a state that looks the
same. -/
theorem State.sameToProgram_with (s : State) (st : Byte) (draw : Bool) {stack : Vector Word 16}
    (hstack : ∀ j : Fin 16, j.val < s.sp.val → stack[j] = s.stack[j]) :
    s.SameToProgram { s with st := st, draw := draw, stack := stack } :=
  ⟨fun _ => rfl, rfl, rfl, rfl, hstack, rfl, rfl, rfl, rfl, rfl, rfl⟩

/-- A state that looks the same is made so. -/
theorem State.SameToProgram.eq_with {s t : State} (h : s.SameToProgram t) :
    t = { s with st := t.st, draw := t.draw, stack := t.stack } := by
  obtain ⟨hregs, hi, hpc, hsp, -, hdt, hfb, hkey, hmem, hrnd, hcount⟩ := h
  have hv : t.v = s.v := State.v_eq_of_reg_eq hregs
  cases t
  simp_all

/-- Whether an instruction faults, and with what, does not depend on what a program cannot observe (R251). -/
theorem State.SameToProgram.faultTable_iff {s t : State} (h : s.SameToProgram t) (i : Instr) (f : Fault) :
    faultTable i t f ↔ faultTable i s f := by
  rw [h.eq_with]
  exact Iff.rfl

/-- Next states of one instruction from states that look the same look the same. -/
theorem State.SameToProgram.nextOf {i : Instr} {s t s' t' : State} (h : s.SameToProgram t) (hs : NextOf s s' i)
    (ht : NextOf t t' i) : s'.SameToProgram t' := by
  have hstack := h.validStack
  rw [h.eq_with] at ht
  cases i with
  | ret =>
    obtain ⟨hp, rfl⟩ := hs
    obtain ⟨-, rfl⟩ := ht
    have hlt := s.sp.isLt
    have htop : t.stack[s.sp.val - 1] = s.stack[s.sp.val - 1] :=
      hstack ⟨s.sp.val - 1, by omega⟩ (Nat.sub_one_lt_of_lt hp)
    dsimp only
    rw [htop]
    exact State.sameToProgram_with _ _ _ fun j hj => hstack j (Nat.lt_of_lt_pred hj)
  | call nnn =>
    obtain ⟨hd, rfl⟩ := hs
    obtain ⟨-, rfl⟩ := ht
    refine State.sameToProgram_with _ _ _ fun j hj => ?_
    have hle : j.val < s.sp.val + 1 := hj
    by_cases htop : s.sp.val = j.val
    · simp [htop]
    · simpa [Vector.getElem_set, htop] using hstack j (by omega)
  | ldVxK x =>
    obtain ⟨hs, rfl⟩ | ⟨k, hs, rfl⟩ := hs <;> obtain ⟨ht, rfl⟩ | ⟨k', ht, rfl⟩ := ht
    · exact State.sameToProgram_with _ _ _ hstack
    · simp [hs] at ht
    · simp [ht] at hs
    · obtain rfl : k = k' := Option.some.inj (hs.symm.trans ht)
      exact State.sameToProgram_with _ _ _ hstack
  | drw x y n =>
    obtain ⟨-, -, rfl⟩ := hs
    obtain ⟨-, -, rfl⟩ := ht
    exact State.sameToProgram_with _ _ _ hstack
  | skp x | sknp x | ldBVx x | ldMemVx x | ldVxMem x =>
    obtain ⟨-, rfl⟩ := hs
    obtain ⟨-, rfl⟩ := ht
    exact State.sameToProgram_with _ _ _ hstack
  | _ =>
    obtain rfl := hs
    obtain rfl := ht
    exact State.sameToProgram_with _ _ _ hstack

/-- States that look the same answer an instruction alike. -/
theorem State.SameToProgram.exec {s t : State} (h : s.SameToProgram t) (i : Instr) :
    SameAnswer (exec i s) (exec i t) := by
  cases hs : Machine.exec i s with
  | next s' =>
    cases ht : Machine.exec i t with
    | next t' => exact h.nextOf (exec_next hs) (exec_next ht)
    | fault f =>
      have hf := (exec_eq_fault_iff i s f).2 ((h.faultTable_iff i f).1 ((exec_eq_fault_iff i t f).1 ht))
      simp [hs] at hf
    | refused r => exact absurd ht (exec_ne_refused i t r)
  | fault f =>
    rw [(exec_eq_fault_iff i t f).2 ((h.faultTable_iff i f).2 ((exec_eq_fault_iff i s f).1 hs))]
    rfl
  | refused r => exact absurd hs (exec_ne_refused i s r)

/-- States that look the same fetch the same word. -/
theorem State.SameToProgram.fetch {s t : State} (h : s.SameToProgram t) : t.fetch = s.fetch := by
  rw [h.eq_with]
  rfl

/-- Settles O56: states that look the same fetch the same word, and answer the instruction it decodes to alike. -/
theorem programCannotObserveSoundRedrawOrStaleStack :
    Obligations.ProgramCannotObserveSoundRedrawOrStaleStack := by
  intro s t h
  obtain ⟨f, hf, hs⟩ | ⟨op, e, hf, hd, hs⟩ | ⟨op, i, hf, hd, hs⟩ := step_cases s
  · rw [hs, step_of_fetch_error (h.fetch.trans hf)]
    rfl
  · rw [hs, step_of_decode_error (h.fetch.trans hf) hd, h.pc]
    rfl
  · rw [hs, step_of_decode_ok (h.fetch.trans hf) hd]
    exact h.exec i

end Sys2Proof.Machine
end
